-- ==== Sys2Proof/Config.lean ====
section
/-! DEFINITION. The named parameters a model takes as arguments (spec/92_eei_decisions.md, last table). The rules are stated for any legal `MW` (R6), so the parameters stand in `State.cfg` and no step changes them (log entry 1). The spec leaves no value of a result open, so there is no free value here. -/

namespace Sys2Proof

/-- What is fixed for one machine: the parameters the spec names. -/
structure Config where
  /-- `MW`: the largest modulus bit length the block accepts (R6). -/
  mw : Nat
  /-- `BASE`: the bus address where the 16 KiB register window starts (R9). -/
  base : Nat
  /-- `ERR_IRQ_LINE`: where the platform wires `err_irq` (R240). -/
  errIrqLine : Nat
  /-- `RESET_CYCLES`: how long reset must be held (R263). A time: no step reads it (log entry 6). -/
  resetCycles : Nat
deriving DecidableEq, Repr

/-- The parameters of the machine that `State.reset` describes: `MW` at the spec's default 256 (R6). The spec gives the
other three no default; 0, 0 and 1 are DESIGN CHOICEs (log entry 1), and no statement rests on them. -/
def Config.default : Config := { mw := 256, base := 0, errIrqLine := 0, resetCycles := 1 }

end Sys2Proof
end

