-- ==== Sys2Proof/Word.lean ====
section
/-! DEFINITION. The word of the host bus, which is also the command word (R61, R90), and the number of a data register (R8, R92). -/

namespace Sys2Proof

/-- One 32-bit bus word (R61); a command is the word one `BusWrite` puts into `CMD` (R90). -/
abbrev Word := BitVec 32

/-- The number of a data register: `NREG = 8`, three bits wide in a command (R8, R92). -/
abbrev Reg := Fin 8

end Sys2Proof
end

