-- ==== Sys2Proof/Syntax.lean ====
section
/-! DEFINITION. The 16 commands of RC1 v1.0, one constructor per row of spec/opcode_table.json (R94, R95). Operands are the fields the row uses; a field a command does not use has no place here, since it must be 0 (R95). -/

namespace Sys2Proof

/-- A command (R94). The suffix letter is the engine: N naive, M Montgomery, B Barrett (R93). -/
inductive Instr where
  /-- `CONS.N rs1`: load the naive engine's modulus (R200). -/
  | consN (rs1 : Reg)
  /-- `CONS.M rs1`: construct the Montgomery context (R150). -/
  | consM (rs1 : Reg)
  /-- `CONS.B rs1`: construct the Barrett context (R180). -/
  | consB (rs1 : Reg)
  /-- `MUL.N rd, rs1, rs2`: naive multiply (R201). -/
  | mulN (rd rs1 rs2 : Reg)
  /-- `MUL.M rd, rs1, rs2`: Montgomery multiply (R162). -/
  | mulM (rd rs1 rs2 : Reg)
  /-- `MUL.B rd, rs1, rs2`: Barrett multiply (R188). -/
  | mulB (rd rs1 rs2 : Reg)
  /-- `DIN.N rd, rs1`: domain in, identity (R202). -/
  | dinN (rd rs1 : Reg)
  /-- `DIN.M rd, rs1`: to Montgomery form (R160). -/
  | dinM (rd rs1 : Reg)
  /-- `DIN.B rd, rs1`: domain in, identity (R190). -/
  | dinB (rd rs1 : Reg)
  /-- `DOUT.N rd, rs1`: domain out, identity (R203). -/
  | doutN (rd rs1 : Reg)
  /-- `DOUT.M rd, rs1`: from Montgomery form (R161). -/
  | doutM (rd rs1 : Reg)
  /-- `DOUT.B rd, rs1`: domain out, identity (R191). -/
  | doutB (rd rs1 : Reg)
  /-- `RED.M rd, rs1`: raw Montgomery REDC (R163). -/
  | redM (rd rs1 : Reg)
  /-- `RED.B rd, rs1`: raw Barrett reduction (R189). -/
  | redB (rd rs1 : Reg)
  /-- `INV rd, rs1, rs2`: modular inverse of `X[rs1]` modulo `X[rs2]` (R140). -/
  | inv (rd rs1 rs2 : Reg)
  /-- `CLRERR`: leave the error state (R215). -/
  | clrerr
deriving DecidableEq, Repr

end Sys2Proof
end

