-- ==== Sys2Proof/WellFormed.lean ====
section
/-! DEFINITION. What is checked beside the types: the legal values of the parameters (R6, R9) and the legal command words (R95, R97). An `Instr` needs no check of its own: its operands are `Reg`s, whose type is the three-bit field (R92), and every `Instr` is a command. -/

namespace Sys2Proof

/-- The legal values of the parameters: `16 <= MW <= 1024`, `MW mod 16 = 0` (R6), `BASE` a multiple of `0x4000` (R9). -/
def Config.legal (c : Config) : Bool :=
  decide (16 ≤ c.mw) && decide (c.mw ≤ 1024) && decide (c.mw % 16 = 0) && decide (c.base % 0x4000 = 0)

/-- How the unused fields of a command with opcode `opc` must read (R95): whether it uses `RD`, `RS1`, `RS2`; `none` for an
opcode that R94 does not list (R97). -/
def fieldUse (opc : Nat) : Option (Bool × Bool × Bool) :=
  if opc = 0x05 ∨ opc = 0x06 ∨ opc = 0x07 then some (false, true, false)
  else if opc = 0x09 ∨ opc = 0x0A ∨ opc = 0x0B then some (true, true, true)
  else if opc = 0x0D ∨ opc = 0x0E ∨ opc = 0x0F then some (true, true, false)
  else if opc = 0x11 ∨ opc = 0x12 ∨ opc = 0x13 then some (true, true, false)
  else if opc = 0x16 ∨ opc = 0x17 then some (true, true, false)
  else if opc = 0x18 then some (true, true, true)
  else if opc = 0x1C then some (false, false, false)
  else none

/-- The words that are NOT illegal in the list of R97: the opcode is one of R94, `RSV` is 0, and every field R95 requires to
be 0 is 0. It is written from R91 and R97 by arithmetic on the word, independently of the decoder's masks (R96). -/
def legalWord (w : Word) : Bool :=
  match fieldUse (w.toNat % 2 ^ 8) with
  | none => false
  | some (useRd, useRs1, useRs2) =>
    decide (w.toNat / 2 ^ 17 = 0) &&
    (useRd || decide (w.toNat / 2 ^ 8 % 8 = 0)) &&
    (useRs1 || decide (w.toNat / 2 ^ 11 % 8 = 0)) &&
    (useRs2 || decide (w.toNat / 2 ^ 14 % 8 = 0))

end Sys2Proof
end

