-- ==== Sys2Proof/Decode.lean ====
section
/-! DEFINITION. Decoding a command word by the masks of R95 (R96) and the encoder of R100. Format C (R91): `OPC` 7:0, `RD` 10:8, `RS1` 13:11, `RS2` 16:14, `RSV` 31:17. -/

namespace Sys2Proof

/-- `OPC = w[7:0]` (R91). -/
def fieldOpc (w : Word) : Nat := w.toNat % 2 ^ 8

/-- `rd = w[10:8]` (R92). -/
def fieldRd (w : Word) : Reg := Fin.ofNat 8 (w.toNat / 2 ^ 8)

/-- `rs1 = w[13:11]` (R92). -/
def fieldRs1 (w : Word) : Reg := Fin.ofNat 8 (w.toNat / 2 ^ 11)

/-- `rs2 = w[16:14]` (R92). -/
def fieldRs2 (w : Word) : Reg := Fin.ofNat 8 (w.toNat / 2 ^ 14)

/-- `RSV = w[31:17]` (R91). -/
def fieldRsv (w : Word) : Nat := w.toNat / 2 ^ 17

/-- The `OPC` of a command (R94): `{GRP, ENG}` of R93. -/
def opcodeOf : Instr → Nat
  | .consN _ => 0x05
  | .consM _ => 0x06
  | .consB _ => 0x07
  | .mulN _ _ _ => 0x09
  | .mulM _ _ _ => 0x0A
  | .mulB _ _ _ => 0x0B
  | .dinN _ _ => 0x0D
  | .dinM _ _ => 0x0E
  | .dinB _ _ => 0x0F
  | .doutN _ _ => 0x11
  | .doutM _ _ => 0x12
  | .doutB _ _ => 0x13
  | .redM _ _ => 0x16
  | .redB _ _ => 0x17
  | .inv _ _ _ => 0x18
  | .clrerr => 0x1C

/-- The register a command names in its `RD` field; `none` where R95 requires the field to be 0. -/
def rdOf : Instr → Option Reg
  | .consN _ | .consM _ | .consB _ | .clrerr => none
  | .mulN rd _ _ | .mulM rd _ _ | .mulB rd _ _ => some rd
  | .dinN rd _ | .dinM rd _ | .dinB rd _ => some rd
  | .doutN rd _ | .doutM rd _ | .doutB rd _ => some rd
  | .redM rd _ | .redB rd _ | .inv rd _ _ => some rd

/-- The register a command names in its `RS1` field; `none` where R95 requires the field to be 0. -/
def rs1Of : Instr → Option Reg
  | .clrerr => none
  | .consN rs1 | .consM rs1 | .consB rs1 => some rs1
  | .mulN _ rs1 _ | .mulM _ rs1 _ | .mulB _ rs1 _ => some rs1
  | .dinN _ rs1 | .dinM _ rs1 | .dinB _ rs1 => some rs1
  | .doutN _ rs1 | .doutM _ rs1 | .doutB _ rs1 => some rs1
  | .redM _ rs1 | .redB _ rs1 | .inv _ rs1 _ => some rs1

/-- The register a command names in its `RS2` field; `none` where R95 requires the field to be 0. -/
def rs2Of : Instr → Option Reg
  | .consN _ | .consM _ | .consB _ | .clrerr => none
  | .mulN _ _ rs2 | .mulM _ _ rs2 | .mulB _ _ rs2 | .inv _ _ rs2 => some rs2
  | .dinN _ _ | .dinM _ _ | .dinB _ _ => none
  | .doutN _ _ | .doutM _ _ | .doutB _ _ => none
  | .redM _ _ | .redB _ _ => none

/-- A field's number: the register's, or 0 where the command does not use the field (R100). -/
def fieldNumber : Option Reg → Nat
  | none => 0
  | some r => r.val

/-- `enc(C, rd, rs1, rs2) = OPC(C) + rd * 2^8 + rs1 * 2^11 + rs2 * 2^14`, unused fields 0 (R100). -/
def enc (opc rd rs1 rs2 : Nat) : Word :=
  BitVec.ofNat 32 (opc + rd * 2 ^ 8 + rs1 * 2 ^ 11 + rs2 * 2 ^ 14)

/-- The word of a command (R100). Every legal word is the word of its command, so this is also what `ECMD` records for a
decoded command (log entry 11). -/
def encode (i : Instr) : Word :=
  enc (opcodeOf i) (fieldNumber (rdOf i)) (fieldNumber (rs1Of i)) (fieldNumber (rs2Of i))

/-- One row of the table of R95: the command's `match` and `mask`, and the command with its three register fields. -/
structure OpRow where
  pattern : Word
  mask : Word
  build : Reg → Reg → Reg → Instr

/-- The table of R94 and R95. -/
def opRows : List OpRow :=
  [ ⟨0x05, 0xFFFFC7FF, fun _ rs1 _ => .consN rs1⟩,
    ⟨0x06, 0xFFFFC7FF, fun _ rs1 _ => .consM rs1⟩,
    ⟨0x07, 0xFFFFC7FF, fun _ rs1 _ => .consB rs1⟩,
    ⟨0x09, 0xFFFE00FF, fun rd rs1 rs2 => .mulN rd rs1 rs2⟩,
    ⟨0x0A, 0xFFFE00FF, fun rd rs1 rs2 => .mulM rd rs1 rs2⟩,
    ⟨0x0B, 0xFFFE00FF, fun rd rs1 rs2 => .mulB rd rs1 rs2⟩,
    ⟨0x0D, 0xFFFFC0FF, fun rd rs1 _ => .dinN rd rs1⟩,
    ⟨0x0E, 0xFFFFC0FF, fun rd rs1 _ => .dinM rd rs1⟩,
    ⟨0x0F, 0xFFFFC0FF, fun rd rs1 _ => .dinB rd rs1⟩,
    ⟨0x11, 0xFFFFC0FF, fun rd rs1 _ => .doutN rd rs1⟩,
    ⟨0x12, 0xFFFFC0FF, fun rd rs1 _ => .doutM rd rs1⟩,
    ⟨0x13, 0xFFFFC0FF, fun rd rs1 _ => .doutB rd rs1⟩,
    ⟨0x16, 0xFFFFC0FF, fun rd rs1 _ => .redM rd rs1⟩,
    ⟨0x17, 0xFFFFC0FF, fun rd rs1 _ => .redB rd rs1⟩,
    ⟨0x18, 0xFFFE00FF, fun rd rs1 rs2 => .inv rd rs1 rs2⟩,
    ⟨0x1C, 0xFFFFFFFF, fun _ _ _ => .clrerr⟩ ]

/-- A word selects a row exactly when `(w AND mask) = match` (R95). -/
def rowSelected (w : Word) (r : OpRow) : Bool := decide (w &&& r.mask = r.pattern)

/-- `decode(w)` (R96): the command of the row the word selects, with its register fields; `none` is `ILLEGAL`. It depends on
the word alone (R99). -/
def decode (w : Word) : Option Instr :=
  (opRows.find? (rowSelected w)).map fun r => r.build (fieldRd w) (fieldRs1 w) (fieldRs2 w)

/-- The command word of a table row's bits: bit 0 is the least significant bit of the bus word (R90), and the bits from
`nbits` up are 0. A command has no byte order of its own (R71). -/
def tableWord (nbits w : Nat) : Word := BitVec.ofNat 32 (w % 2 ^ nbits)

/-- The command the decoder reads from a word numbered as spec/opcode_table.json numbers it; `none` for an illegal word and
for a number that does not fit the one 32-bit format (R90). -/
def decodeTableWord (nbits w : Nat) : Option Instr :=
  if w % 2 ^ nbits < 2 ^ 32 then decode (tableWord nbits w) else none

end Sys2Proof
end

