-- ==== Sys2Proof/Machine/State.lean ====
section
/-! DEFINITION. Everything the spec gives the machine to hold (10_state.md), the host's pending events and the responses given, as plain data; the reset state (R260). Values are naturals (R10); their widths are the invariant of Safety.lean. -/

namespace Sys2Proof.Machine

/-- Why the model stops. Command errors and bus errors are NOT here: the block goes on after them (R228, R231). -/
inductive Fault where
  /-- Raised by `performAccess`: an access after power loss and before reset. The state is then undefined, "stuck until reset"
  (R249, spec/93). Safe: the model stops where the hardware may answer anything (log entry 9). -/
  | powerLost
deriving DecidableEq, Repr

/-- What the model gives no step. -/
inductive Refusal where
  /-- Raised by a refused arm of `exec` only: an instruction whose meaning is not written yet. No arm is refused. Safe. -/
  | notModelled (mnemonic : String)
  /-- Raised by `performAccess`: an access while reset is asserted, to which "a model gives ... no step" (R263). Safe for a
  host that keeps the assumption of D33 (log entry 7). -/
  | accessDuringReset
deriving DecidableEq, Repr

/-- The cause of an error, the table of R221. Codes 6 to 15 are never written (R227), so they have no name here. -/
inductive Cause where
  /-- Code 0: no error. -/
  | none
  /-- Code 1 (R222). -/
  | invalidModulus
  /-- Code 2 (R223). -/
  | inverseNotFound
  /-- Code 3 (R224). -/
  | operandRange
  /-- Code 4 (R225). -/
  | notConfigured
  /-- Code 5 (R226). -/
  | illegalCommand
deriving DecidableEq, Repr

/-- `ECAUSE.OPND`: which operand the error concerns; the value 3 never occurs (R35). -/
inductive Opnd where
  /-- 0: none. -/
  | none
  /-- 1: the `rs1` operand. -/
  | rs1
  /-- 2: the `rs2` operand. -/
  | rs2
deriving DecidableEq, Repr

/-- The naive context (R24). -/
structure NaiveCtx where
  make ::
  /-- The valid bit, also `STATUS.NV`. -/
  nv : Bool
  /-- The modulus. -/
  nn : Nat
deriving DecidableEq, Repr

/-- The Montgomery context (R25). -/
structure MontCtx where
  make ::
  /-- The valid bit, also `STATUS.MV`. -/
  mv : Bool
  /-- The modulus `N`. -/
  mn : Nat
  /-- `k`. -/
  mk : Nat
  /-- `R = 2^k`. -/
  mr : Nat
  /-- `N_prime`. -/
  mnp : Nat
deriving DecidableEq, Repr

/-- The Barrett context (R26). -/
structure BarrettCtx where
  make ::
  /-- The valid bit, also `STATUS.BV`. -/
  bv : Bool
  /-- The modulus `N`. -/
  bn : Nat
  /-- `k`. -/
  bk : Nat
  /-- `mu`. -/
  bmu : Nat
deriving DecidableEq, Repr

/-- The reset input and the supply (R249, R260, R263). -/
inductive Phase where
  /-- Powered, reset released: accesses are performed. -/
  | running
  /-- Reset asserted. -/
  | inReset
  /-- Power was lost and reset has not been asserted since. -/
  | powerLost
deriving DecidableEq, Repr

/-- One event the outside world sends (R248, R249). An access carries its width in bits and its bus address, so that the
accesses the block refuses are events too (R62, R63). -/
inductive HostEvent where
  /-- A bus read of `width` bits at bus address `addr`. -/
  | read (width addr : Nat)
  /-- A bus write of `width` bits at bus address `addr`; the block takes `data` as a 32-bit word (log entry 10). -/
  | write (width addr data : Nat)
  /-- The reset input is asserted. -/
  | assertReset
  /-- The reset input is released. -/
  | releaseReset
  /-- The platform removes power. -/
  | powerLoss
deriving DecidableEq, Repr

/-- What the host gets back for one access (R64, R248). -/
inductive Response where
  /-- A read's word. -/
  | data (v : Word)
  /-- A write performed. -/
  | ok
  /-- A bus error (R65). -/
  | busError
  /-- The address is outside the window: the access is not the block's (log entry 5). -/
  | notMine
deriving DecidableEq, Repr

/-- The machine. -/
structure State where
  /-- The parameters (spec/92). No step changes them. -/
  cfg : Config
  /-- The data registers `X[0]` to `X[7]` (R20). -/
  x : Vector Nat 8
  /-- The naive context (R24). -/
  naive : NaiveCtx
  /-- The Montgomery context (R25). -/
  mont : MontCtx
  /-- The Barrett context (R26). -/
  barrett : BarrettCtx
  /-- `STATUS.ERR` (R33). -/
  err : Bool
  /-- `STATUS.EOVF` (R33). -/
  eovf : Bool
  /-- `STATUS.FSUB` (R38). -/
  fsub : Bool
  /-- `STATUS.BCNT` (R39). -/
  bcnt : BitVec 3
  /-- `CTRL.IRQEN` (R34). -/
  irqen : Bool
  /-- `ECAUSE.CODE` (R35). -/
  cause : Cause
  /-- `ECAUSE.OPND` (R35). -/
  opnd : Opnd
  /-- `ECMD` (R36). -/
  ecmd : Word
  /-- The reset input and the supply. -/
  phase : Phase
  /-- The host's events not yet performed, in arrival order (R70). The model's own (log entry 2). -/
  inbox : List HostEvent
  /-- The responses given, oldest first (R250). The model's own (log entry 2). -/
  log : List Response
deriving DecidableEq, Repr

/-- The machine with parameters `c` right after reset (R260, R261): every register 0, every context invalid, no error. -/
def State.resetOf (c : Config) : State :=
  { cfg := c
    x := Vector.replicate 8 0
    naive := { nv := false, nn := 0 }
    mont := { mv := false, mn := 0, mk := 0, mr := 0, mnp := 0 }
    barrett := { bv := false, bn := 0, bk := 0, bmu := 0 }
    err := false
    eovf := false
    fsub := false
    bcnt := 0
    irqen := false
    cause := .none
    opnd := .none
    ecmd := 0
    phase := .running
    inbox := []
    log := [] }

/-- The machine right after reset, with the default parameters (R6, R260). -/
def State.reset : State := State.resetOf Config.default

end Sys2Proof.Machine
end

