-- ==== Sys2Proof/Machine/Ops.lean ====
section
/-! DEFINITION. The named operations every command and access uses: bit slices and `bitlength` (R11, R13), the data registers (R20), the checks of a command in their order (R122), taking an error (R231), dropping a command (R235), leaving the error state (R215), reset (R260), and the response to an access (R64). -/

namespace Sys2Proof.Machine

/-- What a command or a step answers. -/
abbrev Result := Host.Outcome State Fault Refusal

/-- `XLEN = 2 * MW` (R7). -/
def xlen (c : Config) : Nat := 2 * c.mw

/-- `v[hi:lo] = floor(v / 2^lo) mod 2^(hi-lo+1)` (R11). -/
def bits (v hi lo : Nat) : Nat := v / 2 ^ lo % 2 ^ (hi - lo + 1)

/-- The number of bits of `v` in binary, 0 for 0 (R13). -/
def bitlength (v : Nat) : Nat := if v = 0 then 0 else Nat.log2 v + 1

/-- `X[r]` (R14). -/
def State.readX (s : State) (r : Reg) : Nat := s.x[r.val]

/-- `X[r] <- v` (R14). -/
def State.writeX (s : State) (r : Reg) (v : Nat) : State := { s with x := s.x.set r.val v }

/-- `raise E(opnd)` for the command word `w` (R231): TAKING AN ERROR. It writes `ERR`, `ECAUSE` and `ECMD` and nothing else. -/
def State.raise (s : State) (w : Word) (e : Cause) (o : Opnd) : State :=
  { s with err := true, cause := e, opnd := o, ecmd := w }

/-- `drop(w)` (R235): the word is not decoded; only `EOVF` is set. -/
def State.drop (s : State) : State := { s with eovf := true }

/-- What `CLRERR` commits (R215): RETURNING from the error state (R234). -/
def State.clearError (s : State) : State :=
  { s with err := false, eovf := false, cause := .none, opnd := .none, ecmd := 0 }

/-- Every piece of the block's state at its reset value (R260). The parameters are fixed, and the host's events and the
responses it was given are not the block's. -/
def State.applyReset (s : State) : State :=
  { State.resetOf s.cfg with phase := s.phase, inbox := s.inbox, log := s.log }

/-- The host gets the response `r` to an access (R64, R250). -/
def State.respond (s : State) (r : Response) : State := { s with log := s.log ++ [r] }

/-- One check of a command rule (R122): whether it fails, and what it then raises. -/
structure Check where
  fails : Bool
  cause : Cause
  opnd : Opnd

/-- The first check that fails, in order (R122, R230). -/
def firstFailure : List Check → Option (Cause × Opnd)
  | [] => none
  | c :: cs => if c.fails then some (c.cause, c.opnd) else firstFailure cs

/-- The end of every command rule (R15, R122): the first failing check raises with the command's own word in `ECMD` and
nothing is committed; otherwise `commit`. -/
def conclude (i : Instr) (checks : List Check) (commit s : State) : Result :=
  match firstFailure checks with
  | some (e, o) => .next (s.raise (encode i) e o)
  | none => .next commit

/-- The host's next access performed: `f` on the state, then the response `r`. A stop stays a stop. -/
def thenRespond (o : Result) (r : Response) : Result :=
  match o with
  | .next s => .next (s.respond r)
  | .fault e => .fault e
  | .refused e => .refused e

end Sys2Proof.Machine
end

