-- ==== Sys2Proof/Machine/Flags.lean ====
section
/-! DEFINITION. The two result flags (R38, R39), the numbers of the causes and operands (R35, R221), the words of the read-only and control registers (R31 to R36), and the interrupt output (R240). -/

namespace Sys2Proof.Machine

/-- `STATUS.FSUB <- f` (R38). -/
def State.writeFsub (s : State) (f : Bool) : State := { s with fsub := f }

/-- `STATUS.BCNT <- min(c, 7)` (R39). -/
def State.writeBcnt (s : State) (c : Nat) : State := { s with bcnt := BitVec.ofNat 3 (min c 7) }

/-- The cause codes of R221. -/
def causeCode : Cause → BitVec 4
  | .none => 0
  | .invalidModulus => 1
  | .inverseNotFound => 2
  | .operandRange => 3
  | .notConfigured => 4
  | .illegalCommand => 5

/-- The operand codes of R35. -/
def opndCode : Opnd → BitVec 2
  | .none => 0
  | .rs1 => 1
  | .rs2 => 2

/-- `ID`: the ASCII bytes "REDC", most significant first (R31). -/
def idWord : Word := 0x52454443

/-- `PARAM` (R32): reserved, `VER` 1, `NREG` 8, `MW`. -/
def paramWord (c : Config) : Word := 0#8 ++ 1#4 ++ 8#4 ++ BitVec.ofNat 16 c.mw

/-- `STATUS` (R33); reserved bits read 0. -/
def State.statusWord (s : State) : Word :=
  0#21 ++ s.bcnt ++ 0#2 ++ BitVec.ofBool s.fsub ++ BitVec.ofBool s.barrett.bv ++ BitVec.ofBool s.mont.mv ++
    BitVec.ofBool s.naive.nv ++ BitVec.ofBool s.eovf ++ BitVec.ofBool s.err

/-- `CTRL` (R34); reserved bits read 0. -/
def State.ctrlWord (s : State) : Word := 0#31 ++ BitVec.ofBool s.irqen

/-- A write of `CTRL`: `IRQEN` is bit 0 of the word, bits 31:1 are ignored (R34). -/
def State.writeCtrl (s : State) (w : Word) : State := { s with irqen := w.getLsbD 0 }

/-- `ECAUSE` (R35); reserved bits read 0. -/
def State.ecauseWord (s : State) : Word := 0#26 ++ opndCode s.opnd ++ causeCode s.cause

/-- `err_irq = STATUS.ERR AND CTRL.IRQEN`, a level and no state (R42, R240). -/
def State.errIrq (s : State) : Bool := s.err && s.irqen

/-- The interrupt output as the platform sees it: the line it is wired to and its level (R240). Without power it has no
defined level (R249, log entry 9). -/
def State.irqOutput (s : State) : Option (Nat × Bool) :=
  match s.phase with
  | .powerLost => none
  | _ => some (s.cfg.errIrqLine, s.errIrq)

end Sys2Proof.Machine
end

