-- ==== Sys2Proof/Machine/Operands.lean ====
section
/-! DEFINITION. The operand conditions of the commands (R224): every operand is a data register (R98), and each command's rule bounds the values it accepts. -/

namespace Sys2Proof.Machine

/-- The engine's context must be valid (R29, R225). -/
def needsContext (valid : Bool) : Check := { fails := !valid, cause := .notConfigured, opnd := .none }

/-- The operand `v` must be below `bound`, else `OPERAND_RANGE` naming it (R224). -/
def needsBelow (v bound : Nat) (o : Opnd) : Check :=
  { fails := decide (bound ≤ v), cause := .operandRange, opnd := o }

/-- The operand `v` must be positive, else `OPERAND_RANGE` naming it (R140, R224). -/
def needsPositive (v : Nat) (o : Opnd) : Check := { fails := decide (v = 0), cause := .operandRange, opnd := o }

/-- A modulus the block accepts: positive and at most `MW` bits (R222), and odd where `odd` asks for it (R150). -/
def needsModulus (c : Config) (n : Nat) (odd : Bool) : Check :=
  { fails := decide (n = 0) || (odd && decide (n % 2 = 0)) || decide (c.mw < bitlength n)
    cause := .invalidModulus
    opnd := .rs1 }

/-- The gcd the inverse engine found must be 1 (R140, R223). -/
def needsCoprime (g : Nat) : Check := { fails := decide (g ≠ 1), cause := .inverseNotFound, opnd := .none }

end Sys2Proof.Machine
end

