-- ==== Sys2Proof/Machine/Barrett.lean ====
section
/-! DEFINITION. The Barrett engine (43_barrett.md): the derivation of its context, `breduce`, and CONS.B, RED.B, MUL.B, DIN.B, DOUT.B. -/

namespace Sys2Proof.Machine

/-- The context CONS.B derives from the modulus `n` (R180): a function of `n` alone (R182). -/
def barrettContext (n : Nat) : BarrettCtx :=
  let k := bitlength n
  { bv := true, bn := n, bk := k, bmu := 2 ^ (2 * k) / n }

/-- The correction loop of R183: subtract `n` while `r >= n`, counting. A positive `n` makes `r` fall with every turn, so a
`fuel` above `r` never runs out (log entry 12). -/
def correctionLoop : Nat → Nat → Nat → Nat → Nat × Nat
  | 0, _, r, c => (r, c)
  | fuel + 1, n, r, c => if n ≤ r then correctionLoop fuel n (r - n) (c + 1) else (r, c)

/-- The estimate `q <- ((x >> k) * mu) >> k` of R183. -/
def barrettEstimate (c : BarrettCtx) (v : Nat) : Nat := v / 2 ^ c.bk * c.bmu / 2 ^ c.bk

/-- `breduce(x)` (R183): the reduced value and the number of corrections. -/
def breduce (c : BarrettCtx) (v : Nat) : Nat × Nat :=
  let r := v - barrettEstimate c v * c.bn
  correctionLoop (r + 1) c.bn r 0

/-- `CONS.B` (R180). -/
def execConsB (rs1 : Reg) (s : State) : Result :=
  let n := s.readX rs1
  conclude (.consB rs1) [needsModulus s.cfg n false] { s with barrett := barrettContext n } s

/-- `RED.B` (R189). -/
def execRedB (rd rs1 : Reg) (s : State) : Result :=
  let v := s.readX rs1
  conclude (.redB rd rs1) [needsContext s.barrett.bv, needsBelow v (s.barrett.bn * s.barrett.bn) .rs1]
    ((s.writeX rd (breduce s.barrett v).1).writeBcnt (breduce s.barrett v).2) s

/-- `MUL.B` (R188). -/
def execMulB (rd rs1 rs2 : Reg) (s : State) : Result :=
  let a := s.readX rs1
  let b := s.readX rs2
  conclude (.mulB rd rs1 rs2)
    [needsContext s.barrett.bv, needsBelow a s.barrett.bn .rs1, needsBelow b s.barrett.bn .rs2]
    ((s.writeX rd (breduce s.barrett (a * b)).1).writeBcnt (breduce s.barrett (a * b)).2) s

/-- `DIN.B` (R190). -/
def execDinB (rd rs1 : Reg) (s : State) : Result :=
  let v := s.readX rs1
  conclude (.dinB rd rs1) [needsContext s.barrett.bv, needsBelow v s.barrett.bn .rs1] (s.writeX rd v) s

/-- `DOUT.B` (R191). -/
def execDoutB (rd rs1 : Reg) (s : State) : Result :=
  let v := s.readX rs1
  conclude (.doutB rd rs1) [needsContext s.barrett.bv, needsBelow v s.barrett.bn .rs1] (s.writeX rd v) s

end Sys2Proof.Machine
end

