-- ==== Sys2Proof/Machine/Control.lean ====
section
/-! DEFINITION. Block control (45_control.md): CLRERR. -/

namespace Sys2Proof.Machine

/-- `CLRERR` (R215): it checks nothing and re-runs nothing (R216). -/
def execClrerr (s : State) : Result := conclude .clrerr [] s.clearError s

end Sys2Proof.Machine
end

