-- ==== Sys2Proof/Machine/Inverse.lean ====
section
/-! DEFINITION. The modular-inverse engine (41_inverse.md): the extended Euclidean algorithm and `INV`. -/

namespace Sys2Proof.Machine

/-- The loop of R141 on `(old_r, r)` and `(old_s, s)`. The remainder falls with every turn, so a `fuel` above `r` never runs
out (log entry 12). -/
def egcdLoop : Nat → Nat → Nat → Int → Int → Nat × Int
  | 0, oldR, _, oldS, _ => (oldR, oldS)
  | fuel + 1, oldR, r, oldS, s =>
    if r = 0 then (oldR, oldS)
    else egcdLoop fuel r (oldR - oldR / r * r) s (oldS - (oldR / r : Nat) * s)

/-- `egcd(a, m)` (R141): the gcd of `a` and `m`, and a coefficient for `a`. -/
def egcd (a m : Nat) : Nat × Int := egcdLoop (m + 1) a m 1 0

/-- The coefficient of `a`, reduced into `[0, m)`: `s mod m`, the Euclidean remainder (R12, R140). -/
def inverseMod (a m : Nat) : Nat := ((egcd a m).2 % (m : Int)).toNat

/-- `INV` (R140). -/
def execInv (rd rs1 rs2 : Reg) (s : State) : Result :=
  let a := s.readX rs1
  let m := s.readX rs2
  conclude (.inv rd rs1 rs2)
    [needsPositive a .rs1, needsPositive m .rs2, needsCoprime (egcd a m).1]
    (s.writeX rd (inverseMod a m)) s

end Sys2Proof.Machine
end

