-- ==== Sys2Proof/Machine/Montgomery.lean ====
section
/-! DEFINITION. The Montgomery engine (42_montgomery.md): the derivation of its context, `redc`, and CONS.M, DIN.M, DOUT.M, MUL.M, RED.M. -/

namespace Sys2Proof.Machine

/-- The context CONS.M derives from the modulus `n` (R150, R151): a function of `n` alone (R152). -/
def montContext (n : Nat) : MontCtx :=
  let k := bitlength n
  let r := 2 ^ k
  { mv := true, mn := n, mk := k, mr := r, mnp := (r - inverseMod n r) % r }

/-- `redc(T)` (R156): the reduced value and whether the final subtraction was taken. It always subtracts where it must (R158). -/
def redc (c : MontCtx) (T : Nat) : Nat × Bool :=
  let m := T % 2 ^ c.mk * c.mnp % c.mr
  let t := (T + m * c.mn) / 2 ^ c.mk
  if c.mn ≤ t then (t - c.mn, true) else (t, false)

/-- `CONS.M` (R150). -/
def execConsM (rs1 : Reg) (s : State) : Result :=
  let n := s.readX rs1
  conclude (.consM rs1) [needsModulus s.cfg n true] { s with mont := montContext n } s

/-- `DIN.M` (R160): `(x * R) mod N`; it writes no flag. -/
def execDinM (rd rs1 : Reg) (s : State) : Result :=
  let v := s.readX rs1
  conclude (.dinM rd rs1) [needsContext s.mont.mv, needsBelow v s.mont.mn .rs1]
    (s.writeX rd (v * s.mont.mr % s.mont.mn)) s

/-- `DOUT.M` (R161). -/
def execDoutM (rd rs1 : Reg) (s : State) : Result :=
  let v := s.readX rs1
  conclude (.doutM rd rs1) [needsContext s.mont.mv, needsBelow v s.mont.mn .rs1]
    ((s.writeX rd (redc s.mont v).1).writeFsub (redc s.mont v).2) s

/-- `MUL.M` (R162). -/
def execMulM (rd rs1 rs2 : Reg) (s : State) : Result :=
  let a := s.readX rs1
  let b := s.readX rs2
  conclude (.mulM rd rs1 rs2)
    [needsContext s.mont.mv, needsBelow a s.mont.mn .rs1, needsBelow b s.mont.mn .rs2]
    ((s.writeX rd (redc s.mont (a * b)).1).writeFsub (redc s.mont (a * b)).2) s

/-- `RED.M` (R163). -/
def execRedM (rd rs1 : Reg) (s : State) : Result :=
  let v := s.readX rs1
  conclude (.redM rd rs1) [needsContext s.mont.mv, needsBelow v (s.mont.mn * s.mont.mr) .rs1]
    ((s.writeX rd (redc s.mont v).1).writeFsub (redc s.mont v).2) s

end Sys2Proof.Machine
end

