-- ==== Sys2Proof/Machine/Naive.lean ====
section
/-! DEFINITION. The naive reference engine (44_naive.md): CONS.N, MUL.N, DIN.N, DOUT.N. -/

namespace Sys2Proof.Machine

/-- `CONS.N` (R200). -/
def execConsN (rs1 : Reg) (s : State) : Result :=
  let n := s.readX rs1
  conclude (.consN rs1) [needsModulus s.cfg n false] { s with naive := { nv := true, nn := n } } s

/-- `MUL.N` (R201). -/
def execMulN (rd rs1 rs2 : Reg) (s : State) : Result :=
  let a := s.readX rs1
  let b := s.readX rs2
  conclude (.mulN rd rs1 rs2)
    [needsContext s.naive.nv, needsBelow a s.naive.nn .rs1, needsBelow b s.naive.nn .rs2]
    (s.writeX rd (a * b % s.naive.nn)) s

/-- `DIN.N` (R202). -/
def execDinN (rd rs1 : Reg) (s : State) : Result :=
  let v := s.readX rs1
  conclude (.dinN rd rs1) [needsContext s.naive.nv, needsBelow v s.naive.nn .rs1] (s.writeX rd v) s

/-- `DOUT.N` (R203). -/
def execDoutN (rd rs1 : Reg) (s : State) : Result :=
  let v := s.readX rs1
  conclude (.doutN rd rs1) [needsContext s.naive.nv, needsBelow v s.naive.nn .rs1] (s.writeX rd v) s

end Sys2Proof.Machine
end

