-- ==== Sys2Proof/Machine/Dispatch.lean ====
section
/-! DEFINITION. The dispatcher (R120, R123): each command runs on the engine its suffix names. The error-state gate and the decoding stand before it, in Machine/Cycle.lean. -/

namespace Sys2Proof.Machine

def exec (i : Instr) (s : State) : Host.Outcome State Fault Refusal :=
  match i with
  | .consN rs1 => Sys2Proof.Machine.execConsN rs1 s
  | .consM rs1 => Sys2Proof.Machine.execConsM rs1 s
  | .consB rs1 => Sys2Proof.Machine.execConsB rs1 s
  | .mulN rd rs1 rs2 => Sys2Proof.Machine.execMulN rd rs1 rs2 s
  | .mulM rd rs1 rs2 => Sys2Proof.Machine.execMulM rd rs1 rs2 s
  | .mulB rd rs1 rs2 => Sys2Proof.Machine.execMulB rd rs1 rs2 s
  | .dinN rd rs1 => Sys2Proof.Machine.execDinN rd rs1 s
  | .dinM rd rs1 => Sys2Proof.Machine.execDinM rd rs1 s
  | .dinB rd rs1 => Sys2Proof.Machine.execDinB rd rs1 s
  | .doutN rd rs1 => Sys2Proof.Machine.execDoutN rd rs1 s
  | .doutM rd rs1 => Sys2Proof.Machine.execDoutM rd rs1 s
  | .doutB rd rs1 => Sys2Proof.Machine.execDoutB rd rs1 s
  | .redM rd rs1 => Sys2Proof.Machine.execRedM rd rs1 s
  | .redB rd rs1 => Sys2Proof.Machine.execRedB rd rs1 s
  | .inv rd rs1 rs2 => Sys2Proof.Machine.execInv rd rs1 rs2 s
  | .clrerr => Sys2Proof.Machine.execClrerr s

end Sys2Proof.Machine
end

