-- ==== Sys2Proof/Machine/Window.lean ====
section
/-! DEFINITION. The register window (20_memory.md): its map (R66), the words of a wide register (R67), byte lanes (R71), and what a word read or a word write of a mapped register does. `CMD` is written by the command cycle, Machine/Cycle.lean. -/

namespace Sys2Proof.Machine

/-- The words of a data register: `WX = XLEN / 32 = MW / 16` (R66). -/
def wx (c : Config) : Nat := c.mw / 16

/-- The words of a wide context register: `WC = ceil((MW + 2) / 32)` (R66). -/
def wc (c : Config) : Nat := (c.mw + 2 + 31) / 32

/-- The size of the window in bytes (R60). -/
def windowSize : Nat := 0x4000

/-- A mapped word of the window (R66); `j` numbers the words of a wide register (R67). -/
inductive Slot where
  | id
  | param
  | status
  | ctrl
  | cmd
  | ecause
  | ecmd
  | x (i : Reg) (j : Nat)
  | mn (j : Nat)
  | mr (j : Nat)
  | mnp (j : Nat)
  | mk
  | bn (j : Nat)
  | bmu (j : Nat)
  | bk
  | nn (j : Nat)
deriving DecidableEq, Repr

/-- One row of the map of R66: where a register's words start, how many there are, and the word `j` of it. -/
structure Region where
  start : Nat
  words : Nat
  slot : Nat → Slot

/-- The map of R66. What it does not list is unmapped. -/
def regions (c : Config) : List Region :=
  [ ⟨0x0000, 1, fun _ => .id⟩,
    ⟨0x0004, 1, fun _ => .param⟩,
    ⟨0x0008, 1, fun _ => .status⟩,
    ⟨0x000C, 1, fun _ => .ctrl⟩,
    ⟨0x0010, 1, fun _ => .cmd⟩,
    ⟨0x0014, 1, fun _ => .ecause⟩,
    ⟨0x0018, 1, fun _ => .ecmd⟩ ] ++
  (List.finRange 8).map (fun i => ⟨0x1000 + 0x100 * i.val, wx c, Slot.x i⟩) ++
  [ ⟨0x2000, wc c, .mn⟩,
    ⟨0x2100, wc c, .mr⟩,
    ⟨0x2200, wc c, .mnp⟩,
    ⟨0x2300, 1, fun _ => .mk⟩,
    ⟨0x2400, wc c, .bn⟩,
    ⟨0x2500, wc c, .bmu⟩,
    ⟨0x2600, 1, fun _ => .bk⟩,
    ⟨0x2700, wc c, .nn⟩ ]

/-- Whether the word at offset `off` is one of the region's. -/
def inRegion (off : Nat) (r : Region) : Bool := decide (r.start ≤ off) && decide (off < r.start + 4 * r.words)

/-- The mapped word at offset `off`; `none` where the offset is misaligned (R63) or unmapped (R65). -/
def slotAt (c : Config) (off : Nat) : Option Slot :=
  if off % 4 = 0 then ((regions c).find? (inRegion off)).map fun r => r.slot ((off - r.start) / 4) else none

/-- Word `j` of a wide register: `V[32*j + 31 : 32*j]` (R67). -/
def wordOf (v j : Nat) : Word := BitVec.ofNat 32 (bits v (32 * j + 31) (32 * j))

/-- Word `j` of a wide register replaced, its other bits kept (R67). -/
def replaceWord (v j : Nat) (w : Word) : Nat :=
  v - bits v (32 * j + 31) (32 * j) * 2 ^ (32 * j) + w.toNat * 2 ^ (32 * j)

/-- The bits of a word that byte lane `b` carries, on a bus that names byte lanes: `[8*b+7 : 8*b]` (R71). -/
def byteLane (w : Word) (b : Fin 4) : BitVec 8 := BitVec.ofNat 8 (bits w.toNat (8 * b.val + 7) (8 * b.val))

/-- The word a read of a mapped register returns (R66); `none` for `CMD`, which is write-only (R37, R68). -/
def readSlot (s : State) : Slot → Option Word
  | .id => some idWord
  | .param => some (paramWord s.cfg)
  | .status => some s.statusWord
  | .ctrl => some s.ctrlWord
  | .cmd => none
  | .ecause => some s.ecauseWord
  | .ecmd => some s.ecmd
  | .x i j => some (wordOf (s.readX i) j)
  | .mn j => some (wordOf s.mont.mn j)
  | .mr j => some (wordOf s.mont.mr j)
  | .mnp j => some (wordOf s.mont.mnp j)
  | .mk => some (wordOf s.mont.mk 0)
  | .bn j => some (wordOf s.barrett.bn j)
  | .bmu j => some (wordOf s.barrett.bmu j)
  | .bk => some (wordOf s.barrett.bk 0)
  | .nn j => some (wordOf s.naive.nn j)

/-- `BusRead(off)` (R64): the word, or `none` for a bus error (R65). -/
def busRead (s : State) (off : Nat) : Option Word := (slotAt s.cfg off).bind (readSlot s)

end Sys2Proof.Machine
end

