-- ==== Sys2Proof/Machine/Cycle.lean ====
section
/-! DEFINITION. The command cycle (R120), one bus access (R62 to R68), and one event of the outside world (R248, R249, R260): what Step.lean calls. -/

namespace Sys2Proof.Machine

/-- `issue(w)` (R120): the error-state gate, decoding, then the command's rule. -/
def issue (w : Word) (s : State) : Result :=
  if s.err then
    if w = 0x0000001C then exec .clrerr s else .next s.drop
  else
    match decode w with
    | none => .next (s.raise w .illegalCommand .none)
    | some i => exec i s

/-- `BusWrite(off, w)` (R64), with its response: a data-register word stores whole, `CTRL` stores bit 0, `CMD` runs one
command cycle, and anything else is a bus error with no effect (R65, R68). -/
def busWrite (off : Nat) (w : Word) (s : State) : Result :=
  match slotAt s.cfg off with
  | some .cmd => thenRespond (issue w s) .ok
  | some .ctrl => .next ((s.writeCtrl w).respond .ok)
  | some (.x i j) => .next ((s.writeX i (replaceWord (s.readX i) j w)).respond .ok)
  | _ => .next (s.respond .busError)

/-- Whether a bus address is one of the window's (R60). -/
def inWindow (c : Config) (addr : Nat) : Bool := decide (c.base ≤ addr) && decide (addr < c.base + windowSize)

/-- Whether the block performs accesses now: not while reset is asserted (R263) and not after power loss (R249). -/
def whenRunning (s : State) (performed : Result) : Result :=
  match s.phase with
  | .running => performed
  | .inReset => .refused .accessDuringReset
  | .powerLost => .fault .powerLost

/-- One bus read of `width` bits at bus address `addr`, with its response (R62 to R65). -/
def performRead (width addr : Nat) (s : State) : Result :=
  if inWindow s.cfg addr then
    whenRunning s
      (if width = 32 then
        match busRead s (addr - s.cfg.base) with
        | some v => .next (s.respond (.data v))
        | none => .next (s.respond .busError)
      else .next (s.respond .busError))
  else .next (s.respond .notMine)

/-- One bus write of `width` bits at bus address `addr`, with its response (R62 to R65). -/
def performWrite (width addr data : Nat) (s : State) : Result :=
  if inWindow s.cfg addr then
    whenRunning s
      (if width = 32 then busWrite (addr - s.cfg.base) (BitVec.ofNat 32 data) s
      else .next (s.respond .busError))
  else .next (s.respond .notMine)

/-- Reset asserted: while it is, every piece of state has its reset value (R260). It also ends a power loss (R249). -/
def assertReset (s : State) : State := { s.applyReset with phase := .inReset }

/-- Reset released: every piece of state has its reset value and the block runs (R260, R261). Nothing happens where reset was
not asserted. -/
def releaseReset (s : State) : State :=
  match s.phase with
  | .inReset => { s.applyReset with phase := .running }
  | _ => s

/-- Power removed (R249): the block performs nothing until reset is asserted. -/
def losePower (s : State) : State := { s with phase := .powerLost }

/-- One event performed whole, before the next one starts (R70). -/
def performEvent (e : HostEvent) (s : State) : Result :=
  match e with
  | .read width addr => performRead width addr s
  | .write width addr data => performWrite width addr data s
  | .assertReset => .next (assertReset s)
  | .releaseReset => .next (releaseReset s)
  | .powerLoss => .next (losePower s)

/-- The machine's next step: the first event of the inbox is taken and performed. With no event the block has nothing in
flight and stays as it is (R250). -/
def performNext (s : State) : Result :=
  match s.inbox with
  | [] => .next s
  | e :: rest => performEvent e { s with inbox := rest }

/-- `CMD`'s offset in the window (R66). -/
def cmdOffset : Nat := 0x0010

/-- The host's write of `w` to `CMD` (R102). -/
def cmdWrite (c : Config) (w : Word) : HostEvent := .write 32 (c.base + cmdOffset) w.toNat

/-- The word `w` placed as the next command: the very next event is its write to `CMD`, and the block runs (log entry 3). -/
def placeCommand (w : Word) (s : State) : State :=
  { s with phase := .running, inbox := cmdWrite s.cfg w :: s.inbox }

end Sys2Proof.Machine
end

