-- ==== Sys2Proof/Machine/Step.lean ====
section
/-! DEFINITION. One step of the machine, and an instruction placed as the one the next step runs. -/

namespace Sys2Proof.Machine

/-- One step: one event of the outside world performed whole (R70). The block fetches nothing; a command exists only as the
word written to `CMD` (R23, R78). -/
def step (s : State) : Host.Outcome State Fault Refusal := performNext s

/-- `s` with the instruction of the table's `nbits` bits `w` as its next command (log entry 3). -/
def State.withFetchWord (s : State) (nbits w : Nat) : State := placeCommand (tableWord nbits w) s

end Sys2Proof.Machine
end

