-- ==== Sys2Proof/Machine/Assembler.lean ====
section
/-! DEFINITION. The assembler syntax of R101: one command line read into its command, and a command written as a line. A host tool; no step depends on this file. -/

namespace Sys2Proof.Machine

/-- What a line is made of: words and commas. -/
inductive AsmToken where
  | word (cs : List Char)
  | comma
deriving DecidableEq, Repr

/-- The word gathered so far (its characters reversed), if there is one. -/
def asmFlush (cur : List Char) : List AsmToken := if cur = [] then [] else [.word cur.reverse]

/-- The tokens of a line; `#` starts a comment that runs to its end (R101). Spaces and tabs separate words (log entry 14). -/
def asmLex : List Char → List Char → List AsmToken
  | [], cur => asmFlush cur
  | c :: cs, cur =>
    if c = '#' then asmFlush cur
    else if c = ' ' ∨ c = '\t' then asmFlush cur ++ asmLex cs []
    else if c = ',' then asmFlush cur ++ .comma :: asmLex cs []
    else asmLex cs (c :: cur)

/-- The registers `x0` to `x7` as they are written (R101). -/
def asmRegs : List (List Char × Reg) :=
  [(['x', '0'], 0), (['x', '1'], 1), (['x', '2'], 2), (['x', '3'], 3),
   (['x', '4'], 4), (['x', '5'], 5), (['x', '6'], 6), (['x', '7'], 7)]

/-- The register a word names (R101). -/
def asmReg (cs : List Char) : Option Reg := (asmRegs.find? fun p => decide (p.1 = cs)).map (·.2)

/-- The operands after the mnemonic, separated by commas (R101). -/
def asmOperands : List AsmToken → Option (List Reg)
  | [] => some []
  | [.word w] => (asmReg w).map fun r => [r]
  | .word w :: .comma :: rest =>
    match asmReg w, asmOperands rest with
    | some r, some (q :: qs) => some (r :: q :: qs)
    | _, _ => none
  | _ => none

/-- The mnemonic of a command (R94). -/
def asmMnemonic : Instr → List Char
  | .consN _ => ['C', 'O', 'N', 'S', '.', 'N']
  | .consM _ => ['C', 'O', 'N', 'S', '.', 'M']
  | .consB _ => ['C', 'O', 'N', 'S', '.', 'B']
  | .mulN _ _ _ => ['M', 'U', 'L', '.', 'N']
  | .mulM _ _ _ => ['M', 'U', 'L', '.', 'M']
  | .mulB _ _ _ => ['M', 'U', 'L', '.', 'B']
  | .dinN _ _ => ['D', 'I', 'N', '.', 'N']
  | .dinM _ _ => ['D', 'I', 'N', '.', 'M']
  | .dinB _ _ => ['D', 'I', 'N', '.', 'B']
  | .doutN _ _ => ['D', 'O', 'U', 'T', '.', 'N']
  | .doutM _ _ => ['D', 'O', 'U', 'T', '.', 'M']
  | .doutB _ _ => ['D', 'O', 'U', 'T', '.', 'B']
  | .redM _ _ => ['R', 'E', 'D', '.', 'M']
  | .redB _ _ => ['R', 'E', 'D', '.', 'B']
  | .inv _ _ _ => ['I', 'N', 'V']
  | .clrerr => ['C', 'L', 'R', 'E', 'R', 'R']

/-- The operands of a command in the order a line writes them: `rd`, `rs1`, `rs2`, those it has (R101). -/
def asmFields (i : Instr) : List Reg := (rdOf i).toList ++ (rs1Of i).toList ++ (rs2Of i).toList

/-- The commands a mnemonic with these operands can be (R101). -/
def asmCandidates : List Reg → List Instr
  | [] => [.clrerr]
  | [a] => [.consN a, .consM a, .consB a]
  | [a, b] => [.dinN a b, .dinM a b, .dinB a b, .doutN a b, .doutM a b, .doutB a b, .redM a b, .redB a b]
  | [a, b, c] => [.mulN a b c, .mulM a b c, .mulB a b c, .inv a b c]
  | _ => []

/-- The command a line holds; `none` for a line that holds none or is not of a form of R101. -/
def asmParse (line : List Char) : Option Instr :=
  match asmLex line [] with
  | .word m :: rest =>
    match asmOperands rest with
    | some rs => (asmCandidates rs).find? fun i => decide (asmMnemonic i = m)
    | none => none
  | _ => none

/-- A register as a line writes it (R101). -/
def asmRegText (r : Reg) : List Char := ['x', Char.ofNat (48 + r.val)]

/-- The operands of a line, separated by a comma and a space. -/
def asmOperandText : List Reg → List Char
  | [] => []
  | [r] => asmRegText r
  | r :: rs => asmRegText r ++ [',', ' '] ++ asmOperandText rs

/-- A command as a line (R101). -/
def asmText (i : Instr) : List Char :=
  match asmFields i with
  | [] => asmMnemonic i
  | rs => asmMnemonic i ++ [' '] ++ asmOperandText rs

end Sys2Proof.Machine
end

