-- ==== Sys2Proof/Machine/Pseudo.lean ====
section
/-! DEFINITION. The host's pseudo-instructions (R102) and the harness macro FOLD.e (R131): what the host sends for each of them. The block sees only the expansion; no step depends on this file. -/

namespace Sys2Proof.Machine

/-- The engine a suffix names (R93). -/
inductive Engine where
  | naive
  | montgomery
  | barrett
deriving DecidableEq, Repr

/-- `CONS.e` (R94). -/
def consOf : Engine → Reg → Instr
  | .naive, rs1 => .consN rs1
  | .montgomery, rs1 => .consM rs1
  | .barrett, rs1 => .consB rs1

/-- `MUL.e` (R94). -/
def mulOf : Engine → Reg → Reg → Reg → Instr
  | .naive, rd, rs1, rs2 => .mulN rd rs1 rs2
  | .montgomery, rd, rs1, rs2 => .mulM rd rs1 rs2
  | .barrett, rd, rs1, rs2 => .mulB rd rs1 rs2

/-- `DIN.e` (R94). -/
def dinOf : Engine → Reg → Reg → Instr
  | .naive, rd, rs1 => .dinN rd rs1
  | .montgomery, rd, rs1 => .dinM rd rs1
  | .barrett, rd, rs1 => .dinB rd rs1

/-- `DOUT.e` (R94). -/
def doutOf : Engine → Reg → Reg → Instr
  | .naive, rd, rs1 => .doutN rd rs1
  | .montgomery, rd, rs1 => .doutM rd rs1
  | .barrett, rd, rs1 => .doutB rd rs1

/-- Where data register `i`'s words start in the window (R66). -/
def xOffset (i : Reg) : Nat := 0x1000 + 0x100 * i.val

/-- A command line: `BusWrite(0x0010, enc(C, ops))` (R102). -/
def cmdLine (c : Config) (i : Instr) : List HostEvent := [cmdWrite c (encode i)]

/-- `LDX xi, v`: the words of `v`, lowest first (R102). -/
def ldx (c : Config) (i : Reg) (v : Nat) : List HostEvent :=
  (List.range (wx c)).map fun j => .write 32 (c.base + (xOffset i + 4 * j)) (bits v (32 * j + 31) (32 * j))

/-- `RDX xi`: a read of each word of `X[i]`, lowest first (R102). -/
def rdx (c : Config) (i : Reg) : List HostEvent :=
  (List.range (wx c)).map fun j => .read 32 (c.base + (xOffset i + 4 * j))

/-- The value the host assembles from a wide register's words: `sum_j word_j * 2^(32*j)` (R102). -/
def assembleWords : List Word → Nat
  | [] => 0
  | w :: ws => w.toNat + 2 ^ 32 * assembleWords ws

/-- `RDS`: read STATUS (R102). -/
def rds (c : Config) : List HostEvent := [.read 32 (c.base + 0x0008)]

/-- `RDE`: read ECAUSE, then ECMD (R102). -/
def rde (c : Config) : List HostEvent := [.read 32 (c.base + 0x0014), .read 32 (c.base + 0x0018)]

/-- `IRQ v` (R102). -/
def irq (c : Config) (v : Bool) : List HostEvent := [.write 32 (c.base + 0x000C) v.toNat]

/-- A context register of the window (R66): where its words start and how many it has. -/
inductive CtxReg where
  | mn
  | mr
  | mnp
  | mk
  | bn
  | bmu
  | bk
  | nn
deriving DecidableEq, Repr

/-- Where a context register's words start (R66). -/
def ctxOffset : CtxReg → Nat
  | .mn => 0x2000
  | .mr => 0x2100
  | .mnp => 0x2200
  | .mk => 0x2300
  | .bn => 0x2400
  | .bmu => 0x2500
  | .bk => 0x2600
  | .nn => 0x2700

/-- How many words a context register has (R66). -/
def ctxWords (c : Config) : CtxReg → Nat
  | .mk | .bk => 1
  | _ => wc c

/-- `RDCTX name`: a read of every word of the named context window (R102). -/
def rdctx (c : Config) (n : CtxReg) : List HostEvent :=
  (List.range (ctxWords c n)).map fun j => .read 32 (c.base + (ctxOffset n + 4 * j))

/-- The host loop of FOLD.e over the multiplicands (R131). -/
def foldLoop (c : Config) (e : Engine) : List Nat → List HostEvent
  | [] => []
  | v :: vs => ldx c 3 v ++ cmdLine c (dinOf e 3 3) ++ cmdLine c (mulOf e 2 2 3) ++ foldLoop c e vs

/-- FOLD.e: the modulus `n`, the starting residue `x0` and the multiplicands `vs` folded through engine `e`, the result in
`x4` (R131). -/
def foldProgram (c : Config) (e : Engine) (n x0 : Nat) (vs : List Nat) : List HostEvent :=
  ldx c 0 n ++ cmdLine c (consOf e 0) ++ ldx c 1 x0 ++ cmdLine c (dinOf e 2 1) ++ foldLoop c e vs ++
    cmdLine c (doutOf e 4 2) ++ rdx c 4

end Sys2Proof.Machine
end

