-- ==== Sys2Proof/Safety.lean ====
section
/-! DEFINITION. The terms the statements use: what a valid context is (R28), the invariant of the machine's state, and the runs of several commands or events. -/

namespace Sys2Proof.Machine

/-- R28 for the naive context; while it is not valid its field holds the reset value (R29). -/
structure NaiveCtx.Ok (mw : Nat) (c : NaiveCtx) : Prop where
  valid : c.nv = true → 1 ≤ c.nn ∧ c.nn < 2 ^ mw
  invalid : c.nv = false → c.nn = 0

/-- R28 for the fields of a valid Montgomery context. -/
structure MontCtx.Valid (mw : Nat) (c : MontCtx) : Prop where
  odd : c.mn % 2 = 1
  fits : c.mn < 2 ^ mw
  k : c.mk = bitlength c.mn
  radix : c.mr = 2 ^ c.mk
  below : c.mnp < c.mr
  negInverse : (c.mn * c.mnp + 1) % c.mr = 0
  coprime : Nat.gcd c.mn c.mr = 1

/-- R28 for the Montgomery context; while it is not valid its fields hold the reset values (R29). -/
structure MontCtx.Ok (mw : Nat) (c : MontCtx) : Prop where
  valid : c.mv = true → c.Valid mw
  invalid : c.mv = false → c.mn = 0 ∧ c.mk = 0 ∧ c.mr = 0 ∧ c.mnp = 0

/-- R28 for the fields of a valid Barrett context. -/
structure BarrettCtx.Valid (mw : Nat) (c : BarrettCtx) : Prop where
  positive : 1 ≤ c.bn
  fits : c.bn < 2 ^ mw
  k : c.bk = bitlength c.bn
  reciprocal : c.bmu = 2 ^ (2 * c.bk) / c.bn

/-- R28 for the Barrett context; while it is not valid its fields hold the reset values (R29). -/
structure BarrettCtx.Ok (mw : Nat) (c : BarrettCtx) : Prop where
  valid : c.bv = true → c.Valid mw
  invalid : c.bv = false → c.bn = 0 ∧ c.bk = 0 ∧ c.bmu = 0

/-- The operand codes the table of R221 gives each cause. -/
def causeAllows : Cause → Opnd → Bool
  | .none, .none => true
  | .invalidModulus, .rs1 => true
  | .inverseNotFound, .none => true
  | .operandRange, .rs1 => true
  | .operandRange, .rs2 => true
  | .notConfigured, .none => true
  | .illegalCommand, .none => true
  | _, _ => false

/-- The invariant of the machine's state: legal parameters (R6, R9), data registers within `XLEN` bits (R20), contexts as
R28 and R29 say, the error registers 0 outside the error state (R35, R36), a cause of R221 with an operand it allows, at most
three corrections (R39), and every piece of state at its reset value while reset is asserted (R260). -/
structure State.Inv (s : State) : Prop where
  legal : s.cfg.legal = true
  regs : ∀ r : Reg, s.readX r < 2 ^ xlen s.cfg
  naive : s.naive.Ok s.cfg.mw
  mont : s.mont.Ok s.cfg.mw
  barrett : s.barrett.Ok s.cfg.mw
  noError : s.err = false → s.eovf = false ∧ s.cause = .none ∧ s.opnd = .none ∧ s.ecmd = 0
  anError : s.err = true → s.cause ≠ .none
  operand : causeAllows s.cause s.opnd = true
  corrections : s.bcnt.toNat ≤ 3
  inReset : s.phase = .inReset → s.applyReset = s

/-- The modulus of an engine's context. -/
def modulusOf (s : State) : Engine → Nat
  | .naive => s.naive.nn
  | .montgomery => s.mont.mn
  | .barrett => s.barrett.bn

/-- The valid bit of an engine's context. -/
def validOf (s : State) : Engine → Bool
  | .naive => s.naive.nv
  | .montgomery => s.mont.mv
  | .barrett => s.barrett.bv

/-- An engine's context is valid and as R28 says. -/
def contextReady (s : State) : Engine → Prop
  | .naive => s.naive.nv = true ∧ s.naive.Ok s.cfg.mw
  | .montgomery => s.mont.mv = true ∧ s.mont.Ok s.cfg.mw
  | .barrett => s.barrett.bv = true ∧ s.barrett.Ok s.cfg.mw

/-- Several commands' rules, one after the other, stopping where one stops. -/
def execAll : List Instr → State → Result
  | [], s => .next s
  | i :: is, s =>
    match exec i s with
    | .next t => execAll is t
    | .fault e => .fault e
    | .refused e => .refused e

/-- `s` in the error state that `raise E(opnd)` of the command `i` leaves, written out from R231: `ERR`, `ECAUSE` and `ECMD`
are written and nothing else. -/
def raisedBy (i : Instr) (s : State) (e : Cause) (o : Opnd) : State :=
  { s with err := true, cause := e, opnd := o, ecmd := encode i }

/-- The engine whose context a command uses: its `ENG` field (R93, R123). -/
def engineOf (i : Instr) : Option Engine :=
  match opcodeOf i % 4 with
  | 1 => some .naive
  | 2 => some .montgomery
  | 3 => some .barrett
  | _ => none

/-- The commands that write `FSUB` when they complete (R38). -/
def writesFsub : Instr → Bool
  | .mulM _ _ _ | .doutM _ _ | .redM _ _ => true
  | .consN _ | .consM _ | .consB _ | .mulN _ _ _ | .mulB _ _ _ | .dinN _ _ | .dinM _ _ | .dinB _ _ => false
  | .doutN _ _ | .doutB _ _ | .redB _ _ | .inv _ _ _ | .clrerr => false

/-- The commands that write `BCNT` when they complete (R39). -/
def writesBcnt : Instr → Bool
  | .mulB _ _ _ | .redB _ _ => true
  | .consN _ | .consM _ | .consB _ | .mulN _ _ _ | .mulM _ _ _ | .dinN _ _ | .dinM _ _ | .dinB _ _ => false
  | .doutN _ _ | .doutM _ _ | .doutB _ _ | .redM _ _ | .inv _ _ _ | .clrerr => false

/-- The offset of a mapped word (R66, R67). -/
def slotOffset : Slot → Nat
  | .id => 0x0000
  | .param => 0x0004
  | .status => 0x0008
  | .ctrl => 0x000C
  | .cmd => 0x0010
  | .ecause => 0x0014
  | .ecmd => 0x0018
  | .x i j => 0x1000 + 0x100 * i.val + 4 * j
  | .mn j => 0x2000 + 4 * j
  | .mr j => 0x2100 + 4 * j
  | .mnp j => 0x2200 + 4 * j
  | .mk => 0x2300
  | .bn j => 0x2400 + 4 * j
  | .bmu j => 0x2500 + 4 * j
  | .bk => 0x2600
  | .nn j => 0x2700 + 4 * j

/-- Which words of a wide register are mapped (R66): `WX = MW / 16` of a data register and `WC = ceil((MW + 2) / 32)` of a
context register. -/
def slotMapped (c : Config) : Slot → Prop
  | .x _ j => 16 * j < c.mw
  | .mn j | .mr j | .mnp j | .bn j | .bmu j | .nn j => 32 * j < c.mw + 2
  | _ => True

/-- The words the host may write: `CTRL`, `CMD` and the data registers (R66, R68). -/
def slotWritable : Slot → Bool
  | .ctrl | .cmd | .x _ _ => true
  | _ => false

/-- The value of a context register (R24 to R26). -/
def ctxValue (s : State) : CtxReg → Nat
  | .mn => s.mont.mn
  | .mr => s.mont.mr
  | .mnp => s.mont.mnp
  | .mk => s.mont.mk
  | .bn => s.barrett.bn
  | .bmu => s.barrett.bmu
  | .bk => s.barrett.bk
  | .nn => s.naive.nn

/-- `k` steps of the machine. -/
def runSteps (k : Nat) (s : State) : Result :=
  match k with
  | 0 => .next s
  | k + 1 =>
    match step s with
    | .next t => runSteps k t
    | .fault e => .fault e
    | .refused e => .refused e

end Sys2Proof.Machine
end

