-- ==== Sys2Proof/Certificates/Slice0/Obligations.lean ====
section
/-! DEFINITION. The statements about the model, each from the numbered rules of spec/. -/

open Sys2Proof Sys2Proof.Machine

/-! ## The encoding (30_encoding.md) -/

/-- R96, R100: decoding the word of a command gives the command back, with every operand at every value. -/
def Obligations.DecodeInvertsEncode : Prop :=
  ∀ i : Instr, decode (encode i) = some i

/-- R95, R96, R100: a word that decodes to a command is that command's word, so no bit of a legal word is dropped. -/
def Obligations.EncodeInvertsDecode : Prop :=
  ∀ (w : Word) (i : Instr), decode w = some i → encode i = w

/-- R97, R121, R226: the words decoded as `ILLEGAL` are exactly those of R97's list (an unlisted opcode, a non-zero `RSV`, a
non-zero unused field), and each raises `ILLEGAL_COMMAND` with `OPND` 0 and the word in `ECMD`, and changes nothing else. -/
def Obligations.IllegalWordsRaise : Prop :=
  ∀ w : Word,
    (decode w = none ↔ legalWord w = false) ∧
    (legalWord w = false → ∀ s : State, s.err = false →
      issue w s = .next { s with err := true, cause := .illegalCommand, opnd := .none, ecmd := w })

/-- R95: at most one row of the table is selected by a word, and the row a command's word selects has its opcode as match. -/
def Obligations.AtMostOneRowSelected : Prop :=
  (∀ w : Word, (opRows.filter (rowSelected w)).length ≤ 1) ∧
  (∀ i : Instr, ∃ r ∈ opRows, rowSelected (encode i) r = true ∧ r.pattern.toNat = opcodeOf i)

/-- R100 and the vectors of 95_test_vectors.md §2.1: words written out by the spec decode to their commands. -/
def Obligations.SpecWordsDecode : Prop :=
  decode 0x0001640A = some (.mulM 4 4 5) ∧ decode 0x00016409 = some (.mulN 4 4 5) ∧
  decode 0x0001FF0B = some (.mulB 7 7 7) ∧ decode 0x00000006 = some (.consM 0) ∧
  decode 0x00000805 = some (.consN 1) ∧ decode 0x00000007 = some (.consB 0) ∧
  decode 0x00001B0E = some (.dinM 3 3) ∧ decode 0x00000A0D = some (.dinN 2 1) ∧
  decode 0x00001B0F = some (.dinB 3 3) ∧ decode 0x00001611 = some (.doutN 6 2) ∧
  decode 0x00001412 = some (.doutM 4 2) ∧ decode 0x00001513 = some (.doutB 5 2) ∧
  decode 0x00000A16 = some (.redM 2 1) ∧ decode 0x00002517 = some (.redB 5 4) ∧
  decode 0x00001C18 = some (.inv 4 3 0) ∧ decode 0x0000001C = some .clrerr

/-! ## The commands, one statement per rule -/

/-- R200: `CONS.N`, every operand value. -/
def Obligations.ConsNLoadsModulus : Prop :=
  ∀ (rs1 : Reg) (s : State),
    encode (.consN rs1) &&& 0xFFFFC7FF = 0x00000005 ∧
    (s.readX rs1 = 0 ∨ s.cfg.mw < bitlength (s.readX rs1) →
      exec (.consN rs1) s = .next (raisedBy (.consN rs1) s .invalidModulus .rs1)) ∧
    (s.readX rs1 ≠ 0 → bitlength (s.readX rs1) ≤ s.cfg.mw →
      exec (.consN rs1) s = .next { s with naive := { nv := true, nn := s.readX rs1 } })

/-- R150, R151: `CONS.M`, every operand value; the context it writes is valid by R28, which fixes every field, and no
`CONS.M` reports `INVERSE_NOT_FOUND` (R145). -/
def Obligations.ConsMConstructsContext : Prop :=
  ∀ (rs1 : Reg) (s : State),
    encode (.consM rs1) &&& 0xFFFFC7FF = 0x00000006 ∧
    (s.readX rs1 = 0 ∨ s.readX rs1 % 2 = 0 ∨ s.cfg.mw < bitlength (s.readX rs1) →
      exec (.consM rs1) s = .next (raisedBy (.consM rs1) s .invalidModulus .rs1)) ∧
    (s.readX rs1 ≠ 0 → s.readX rs1 % 2 = 1 → bitlength (s.readX rs1) ≤ s.cfg.mw →
      ∃ c : MontCtx, exec (.consM rs1) s = .next { s with mont := c } ∧
        c.mv = true ∧ c.mn = s.readX rs1 ∧ c.mk = bitlength (s.readX rs1) ∧ c.mr = 2 ^ c.mk ∧
        1 ≤ c.mnp ∧ c.mnp < c.mr ∧ (c.mn * c.mnp + 1) % c.mr = 0 ∧
        (egcd c.mn c.mr).1 = 1 ∧
        (∃ inv, inv < c.mr ∧ c.mn * inv % c.mr = 1 % c.mr ∧ c.mnp = (c.mr - inv) % c.mr))

/-- R180: `CONS.B`, every operand value. -/
def Obligations.ConsBConstructsContext : Prop :=
  ∀ (rs1 : Reg) (s : State),
    encode (.consB rs1) &&& 0xFFFFC7FF = 0x00000007 ∧
    (s.readX rs1 = 0 ∨ s.cfg.mw < bitlength (s.readX rs1) →
      exec (.consB rs1) s = .next (raisedBy (.consB rs1) s .invalidModulus .rs1)) ∧
    (s.readX rs1 ≠ 0 → bitlength (s.readX rs1) ≤ s.cfg.mw →
      exec (.consB rs1) s = .next { s with barrett := {
        bv := true
        bn := s.readX rs1
        bk := bitlength (s.readX rs1)
        bmu := 2 ^ (2 * bitlength (s.readX rs1)) / s.readX rs1 } })

/-- R201: `MUL.N`, every operand value. -/
def Obligations.MulNIsRemainderOfProduct : Prop :=
  ∀ (rd rs1 rs2 : Reg) (s : State),
    encode (.mulN rd rs1 rs2) &&& 0xFFFE00FF = 0x00000009 ∧
    (s.naive.nv = false →
      exec (.mulN rd rs1 rs2) s = .next (raisedBy (.mulN rd rs1 rs2) s .notConfigured .none)) ∧
    (s.naive.nv = true → s.naive.nn ≤ s.readX rs1 →
      exec (.mulN rd rs1 rs2) s = .next (raisedBy (.mulN rd rs1 rs2) s .operandRange .rs1)) ∧
    (s.naive.nv = true → s.readX rs1 < s.naive.nn → s.naive.nn ≤ s.readX rs2 →
      exec (.mulN rd rs1 rs2) s = .next (raisedBy (.mulN rd rs1 rs2) s .operandRange .rs2)) ∧
    (s.naive.nv = true → s.readX rs1 < s.naive.nn → s.readX rs2 < s.naive.nn →
      exec (.mulN rd rs1 rs2) s =
        .next { s with x := s.x.set rd.val (s.readX rs1 * s.readX rs2 % s.naive.nn) })

/-- R162: `MUL.M`, every operand value. With a context as R28 says, the result is the value below `N` that `R` times is the
product modulo `N`, and `FSUB` is whether the unsubtracted `t` of R156 reached `N`; and the law of R162: the product of two
Montgomery forms is the Montgomery form of the product. -/
def Obligations.MulMIsMontgomeryProduct : Prop :=
  ∀ (rd rs1 rs2 : Reg) (s : State),
    encode (.mulM rd rs1 rs2) &&& 0xFFFE00FF = 0x0000000A ∧
    (s.mont.mv = false →
      exec (.mulM rd rs1 rs2) s = .next (raisedBy (.mulM rd rs1 rs2) s .notConfigured .none)) ∧
    (s.mont.mv = true → s.mont.mn ≤ s.readX rs1 →
      exec (.mulM rd rs1 rs2) s = .next (raisedBy (.mulM rd rs1 rs2) s .operandRange .rs1)) ∧
    (s.mont.mv = true → s.readX rs1 < s.mont.mn → s.mont.mn ≤ s.readX rs2 →
      exec (.mulM rd rs1 rs2) s = .next (raisedBy (.mulM rd rs1 rs2) s .operandRange .rs2)) ∧
    (s.mont.mv = true → s.mont.Valid s.cfg.mw → s.readX rs1 < s.mont.mn → s.readX rs2 < s.mont.mn →
      ∃ v, v < s.mont.mn ∧ v * s.mont.mr % s.mont.mn = s.readX rs1 * s.readX rs2 % s.mont.mn ∧
        exec (.mulM rd rs1 rs2) s = .next { s with
          x := s.x.set rd.val v
          fsub := decide (s.mont.mn ≤
            (s.readX rs1 * s.readX rs2 +
              s.readX rs1 * s.readX rs2 % 2 ^ s.mont.mk * s.mont.mnp % s.mont.mr * s.mont.mn) / 2 ^ s.mont.mk) } ∧
        (∀ p q, p < s.mont.mn → q < s.mont.mn → s.readX rs1 = p * s.mont.mr % s.mont.mn →
          s.readX rs2 = q * s.mont.mr % s.mont.mn → v = p * q % s.mont.mn * s.mont.mr % s.mont.mn))

/-- R188, R184, R185: `MUL.B`, every operand value. With a context as R28 says, the result is the remainder of the product
and `BCNT` is what the estimate of R183 falls short of the quotient, at most 3. -/
def Obligations.MulBIsRemainderOfProduct : Prop :=
  ∀ (rd rs1 rs2 : Reg) (s : State),
    encode (.mulB rd rs1 rs2) &&& 0xFFFE00FF = 0x0000000B ∧
    (s.barrett.bv = false →
      exec (.mulB rd rs1 rs2) s = .next (raisedBy (.mulB rd rs1 rs2) s .notConfigured .none)) ∧
    (s.barrett.bv = true → s.barrett.bn ≤ s.readX rs1 →
      exec (.mulB rd rs1 rs2) s = .next (raisedBy (.mulB rd rs1 rs2) s .operandRange .rs1)) ∧
    (s.barrett.bv = true → s.readX rs1 < s.barrett.bn → s.barrett.bn ≤ s.readX rs2 →
      exec (.mulB rd rs1 rs2) s = .next (raisedBy (.mulB rd rs1 rs2) s .operandRange .rs2)) ∧
    (s.barrett.bv = true → s.barrett.Valid s.cfg.mw → s.readX rs1 < s.barrett.bn → s.readX rs2 < s.barrett.bn →
      ∃ c, c ≤ 3 ∧
        c = s.readX rs1 * s.readX rs2 / s.barrett.bn -
          s.readX rs1 * s.readX rs2 / 2 ^ s.barrett.bk * s.barrett.bmu / 2 ^ s.barrett.bk ∧
        exec (.mulB rd rs1 rs2) s = .next { s with
          x := s.x.set rd.val (s.readX rs1 * s.readX rs2 % s.barrett.bn)
          bcnt := BitVec.ofNat 3 c })

/-- R202, R203: `DIN.N` and `DOUT.N`, every operand value: the identity on residues. -/
def Obligations.NaiveConversionsAreIdentity : Prop :=
  ∀ (rd rs1 : Reg) (s : State),
    encode (.dinN rd rs1) &&& 0xFFFFC0FF = 0x0000000D ∧ encode (.doutN rd rs1) &&& 0xFFFFC0FF = 0x00000011 ∧
    (s.naive.nv = false →
      exec (.dinN rd rs1) s = .next (raisedBy (.dinN rd rs1) s .notConfigured .none) ∧
      exec (.doutN rd rs1) s = .next (raisedBy (.doutN rd rs1) s .notConfigured .none)) ∧
    (s.naive.nv = true → s.naive.nn ≤ s.readX rs1 →
      exec (.dinN rd rs1) s = .next (raisedBy (.dinN rd rs1) s .operandRange .rs1) ∧
      exec (.doutN rd rs1) s = .next (raisedBy (.doutN rd rs1) s .operandRange .rs1)) ∧
    (s.naive.nv = true → s.readX rs1 < s.naive.nn →
      exec (.dinN rd rs1) s = .next { s with x := s.x.set rd.val (s.readX rs1) } ∧
      exec (.doutN rd rs1) s = .next { s with x := s.x.set rd.val (s.readX rs1) })

/-- R160: `DIN.M`, every operand value. -/
def Obligations.DinMIsMontgomeryForm : Prop :=
  ∀ (rd rs1 : Reg) (s : State),
    encode (.dinM rd rs1) &&& 0xFFFFC0FF = 0x0000000E ∧
    (s.mont.mv = false →
      exec (.dinM rd rs1) s = .next (raisedBy (.dinM rd rs1) s .notConfigured .none)) ∧
    (s.mont.mv = true → s.mont.mn ≤ s.readX rs1 →
      exec (.dinM rd rs1) s = .next (raisedBy (.dinM rd rs1) s .operandRange .rs1)) ∧
    (s.mont.mv = true → s.readX rs1 < s.mont.mn →
      exec (.dinM rd rs1) s = .next { s with x := s.x.set rd.val (s.readX rs1 * s.mont.mr % s.mont.mn) })

/-- R161: `DOUT.M`, every operand value. With a context as R28 says, the result is the residue whose Montgomery form the
operand is, and `FSUB` is 0. -/
def Obligations.DoutMLeavesMontgomeryForm : Prop :=
  ∀ (rd rs1 : Reg) (s : State),
    encode (.doutM rd rs1) &&& 0xFFFFC0FF = 0x00000012 ∧
    (s.mont.mv = false →
      exec (.doutM rd rs1) s = .next (raisedBy (.doutM rd rs1) s .notConfigured .none)) ∧
    (s.mont.mv = true → s.mont.mn ≤ s.readX rs1 →
      exec (.doutM rd rs1) s = .next (raisedBy (.doutM rd rs1) s .operandRange .rs1)) ∧
    (s.mont.mv = true → s.mont.Valid s.cfg.mw → s.readX rs1 < s.mont.mn →
      ∃ v, v < s.mont.mn ∧ v * s.mont.mr % s.mont.mn = s.readX rs1 ∧
        exec (.doutM rd rs1) s = .next { s with x := s.x.set rd.val v, fsub := false })

/-- R190, R191: `DIN.B` and `DOUT.B`, every operand value: the identity on residues. -/
def Obligations.BarrettConversionsAreIdentity : Prop :=
  ∀ (rd rs1 : Reg) (s : State),
    encode (.dinB rd rs1) &&& 0xFFFFC0FF = 0x0000000F ∧ encode (.doutB rd rs1) &&& 0xFFFFC0FF = 0x00000013 ∧
    (s.barrett.bv = false →
      exec (.dinB rd rs1) s = .next (raisedBy (.dinB rd rs1) s .notConfigured .none) ∧
      exec (.doutB rd rs1) s = .next (raisedBy (.doutB rd rs1) s .notConfigured .none)) ∧
    (s.barrett.bv = true → s.barrett.bn ≤ s.readX rs1 →
      exec (.dinB rd rs1) s = .next (raisedBy (.dinB rd rs1) s .operandRange .rs1) ∧
      exec (.doutB rd rs1) s = .next (raisedBy (.doutB rd rs1) s .operandRange .rs1)) ∧
    (s.barrett.bv = true → s.readX rs1 < s.barrett.bn →
      exec (.dinB rd rs1) s = .next { s with x := s.x.set rd.val (s.readX rs1) } ∧
      exec (.doutB rd rs1) s = .next { s with x := s.x.set rd.val (s.readX rs1) })

/-- R163: `RED.M`, every operand value. With a context as R28 says, the result is the value below `N` that `R` times is `T`
modulo `N`, and `FSUB` is whether the unsubtracted `t` of R156 reached `N`. -/
def Obligations.RedMIsMontgomeryReduction : Prop :=
  ∀ (rd rs1 : Reg) (s : State),
    encode (.redM rd rs1) &&& 0xFFFFC0FF = 0x00000016 ∧
    (s.mont.mv = false →
      exec (.redM rd rs1) s = .next (raisedBy (.redM rd rs1) s .notConfigured .none)) ∧
    (s.mont.mv = true → s.mont.mn * s.mont.mr ≤ s.readX rs1 →
      exec (.redM rd rs1) s = .next (raisedBy (.redM rd rs1) s .operandRange .rs1)) ∧
    (s.mont.mv = true → s.mont.Valid s.cfg.mw → s.readX rs1 < s.mont.mn * s.mont.mr →
      ∃ v, v < s.mont.mn ∧ v * s.mont.mr % s.mont.mn = s.readX rs1 % s.mont.mn ∧
        exec (.redM rd rs1) s = .next { s with
          x := s.x.set rd.val v
          fsub := decide (s.mont.mn ≤
            (s.readX rs1 + s.readX rs1 % 2 ^ s.mont.mk * s.mont.mnp % s.mont.mr * s.mont.mn) / 2 ^ s.mont.mk) })

/-- R189, R184, R185: `RED.B`, every operand value. With a context as R28 says, the result is the remainder and `BCNT` is what
the estimate of R183 falls short of the quotient, at most 3. -/
def Obligations.RedBIsRemainder : Prop :=
  ∀ (rd rs1 : Reg) (s : State),
    encode (.redB rd rs1) &&& 0xFFFFC0FF = 0x00000017 ∧
    (s.barrett.bv = false →
      exec (.redB rd rs1) s = .next (raisedBy (.redB rd rs1) s .notConfigured .none)) ∧
    (s.barrett.bv = true → s.barrett.bn * s.barrett.bn ≤ s.readX rs1 →
      exec (.redB rd rs1) s = .next (raisedBy (.redB rd rs1) s .operandRange .rs1)) ∧
    (s.barrett.bv = true → s.barrett.Valid s.cfg.mw → s.readX rs1 < s.barrett.bn * s.barrett.bn →
      ∃ c, c ≤ 3 ∧
        c = s.readX rs1 / s.barrett.bn -
          s.readX rs1 / 2 ^ s.barrett.bk * s.barrett.bmu / 2 ^ s.barrett.bk ∧
        exec (.redB rd rs1) s = .next { s with
          x := s.x.set rd.val (s.readX rs1 % s.barrett.bn)
          bcnt := BitVec.ofNat 3 c })

/-- R140, R143: `INV`, every operand value: two positive coprime operands give the one `x` in `[0, m)` with
`a*x = 1` modulo `m`; zero operands and a gcd other than 1 raise. -/
def Obligations.InvIsModularInverse : Prop :=
  ∀ (rd rs1 rs2 : Reg) (s : State),
    encode (.inv rd rs1 rs2) &&& 0xFFFE00FF = 0x00000018 ∧
    (s.readX rs1 = 0 →
      exec (.inv rd rs1 rs2) s = .next (raisedBy (.inv rd rs1 rs2) s .operandRange .rs1)) ∧
    (s.readX rs1 ≠ 0 → s.readX rs2 = 0 →
      exec (.inv rd rs1 rs2) s = .next (raisedBy (.inv rd rs1 rs2) s .operandRange .rs2)) ∧
    (s.readX rs1 ≠ 0 → s.readX rs2 ≠ 0 → Nat.gcd (s.readX rs1) (s.readX rs2) ≠ 1 →
      exec (.inv rd rs1 rs2) s = .next (raisedBy (.inv rd rs1 rs2) s .inverseNotFound .none)) ∧
    (s.readX rs1 ≠ 0 → s.readX rs2 ≠ 0 → Nat.gcd (s.readX rs1) (s.readX rs2) = 1 →
      ∃ v, v < s.readX rs2 ∧ s.readX rs1 * v % s.readX rs2 = 1 % s.readX rs2 ∧
        (∀ y, y < s.readX rs2 → s.readX rs1 * y % s.readX rs2 = 1 % s.readX rs2 → y = v) ∧
        exec (.inv rd rs1 rs2) s = .next { s with x := s.x.set rd.val v })

/-- R215: `CLRERR` is the one word `0x0000001C`; it clears `ERR`, `EOVF`, `ECAUSE` and `ECMD` and nothing else, in and out of
the error state; a word with opcode `0x1C` and another bit set is dropped in the error state and illegal outside it. -/
def Obligations.ClrerrLeavesErrorState : Prop :=
  encode .clrerr = 0x0000001C ∧
  (∀ s : State, exec .clrerr s =
    .next { s with err := false, eovf := false, cause := .none, opnd := .none, ecmd := 0 }) ∧
  (∀ s : State, issue 0x0000001C s =
    .next { s with err := false, eovf := false, cause := .none, opnd := .none, ecmd := 0 }) ∧
  (∀ (w : Word) (s : State), w.toNat % 256 = 0x1C → w ≠ 0x0000001C →
    (s.err = true → issue w s = .next { s with eovf := true }) ∧
    (s.err = false →
      issue w s = .next { s with err := true, cause := .illegalCommand, opnd := .none, ecmd := w }))

/-! ## The arithmetic of the engines -/

/-- R157: the five properties of `redc` with a valid context, for every `T` below `N * R`. -/
def Obligations.RedcIsExactReduction : Prop :=
  ∀ (mw : Nat) (c : MontCtx) (T : Nat), c.Valid mw → T < c.mn * c.mr →
    let m := T % 2 ^ c.mk * c.mnp % c.mr
    let u := T + m * c.mn
    u % c.mr = 0 ∧
    u / c.mr < 2 * c.mn ∧
    u / c.mr * c.mr % c.mn = T % c.mn ∧
    (redc c T).1 < c.mn ∧
    (redc c T).2 = decide (c.mn ≤ u / c.mr) ∧
    (∀ rinv, c.mr * rinv % c.mn = 1 % c.mn → (redc c T).1 = T * rinv % c.mn) ∧
    u < 2 ^ (2 * mw + 1) ∧
    m * c.mn < 2 ^ (2 * mw)

/-- R184: with a valid context, for every `x`, the estimate is at most the quotient, the loop stops with the remainder, and
it runs exactly as often as the estimate falls short. -/
def Obligations.BreduceIsRemainder : Prop :=
  ∀ (mw : Nat) (c : BarrettCtx) (v : Nat), c.Valid mw →
    barrettEstimate c v ≤ v / c.bn ∧
    (breduce c v).1 = v % c.bn ∧
    v = (barrettEstimate c v + (breduce c v).2) * c.bn + (breduce c v).1

/-- R185: below `N * N` the correction loop runs at most three times, and three times it does run, for the spec's own
example `N = 133`, `x = 13566`. -/
def Obligations.CorrectionLoopRunsAtMostThrice : Prop :=
  (∀ (mw : Nat) (c : BarrettCtx) (v : Nat), c.Valid mw → v < c.bn * c.bn → (breduce c v).2 ≤ 3) ∧
  (barrettContext 133).bk = 8 ∧ (barrettContext 133).bmu = 492 ∧
  barrettEstimate (barrettContext 133) 13566 = 99 ∧ breduce (barrettContext 133) 13566 = (0, 3)

/-- R181: `2^k <= mu <= 2^(k+1)`, and `mu` fits the `MW + 2` bits of `BMU`. -/
def Obligations.ReciprocalFitsItsRegister : Prop :=
  ∀ (mw : Nat) (c : BarrettCtx), c.Valid mw →
    2 ^ c.bk ≤ c.bmu ∧ c.bmu ≤ 2 ^ (c.bk + 1) ∧ c.bmu < 2 ^ (mw + 2)

/-- R186: the widths of Barrett's intermediates below `N * N`. -/
def Obligations.BarrettIntermediatesFit : Prop :=
  ∀ (mw : Nat) (c : BarrettCtx) (v : Nat), c.Valid mw → v < c.bn * c.bn →
    v < 2 ^ (2 * c.bk) ∧
    v / 2 ^ c.bk < 2 ^ c.bk ∧
    v / 2 ^ c.bk * c.bmu < 2 ^ (2 * c.bk + 1) ∧
    barrettEstimate c v ≤ v / c.bn ∧ v / c.bn < c.bn ∧
    barrettEstimate c v * c.bn ≤ v ∧
    4 * (v - barrettEstimate c v * c.bn) < 13 * c.bn ∧
    v - barrettEstimate c v * c.bn < 2 ^ (c.bk + 2) ∧
    v / 2 ^ c.bk * c.bmu < 2 ^ (2 * mw + 1) ∧ v < 2 ^ (2 * mw + 1) ∧ v - barrettEstimate c v * c.bn < 2 ^ (2 * mw + 1)

/-- R155: the Montgomery form is a bijection on `[0, N)`. -/
def Obligations.MontgomeryFormIsBijective : Prop :=
  ∀ (mw : Nat) (c : MontCtx), c.Valid mw →
    (∀ p, p < c.mn → p * c.mr % c.mn < c.mn) ∧
    (∀ p q, p < c.mn → q < c.mn → p * c.mr % c.mn = q * c.mr % c.mn → p = q) ∧
    (∀ y, y < c.mn → ∃ p, p < c.mn ∧ p * c.mr % c.mn = y)

/-- R141: for positive `a` and `m`, `egcd` ends with the gcd and a coefficient `s` with `a*s = gcd` modulo `m`. -/
def Obligations.EgcdFindsGcdAndCoefficient : Prop :=
  ∀ a m : Nat, 1 ≤ a → 1 ≤ m →
    (egcd a m).1 = Nat.gcd a m ∧ ((a : Int) * (egcd a m).2 - (Nat.gcd a m : Int)) % (m : Int) = 0

/-- R152, R182: in any two states, `CONS.M` (and `CONS.B`) of equal moduli that both accept write equal contexts. -/
def Obligations.ContextsDependOnModulusAlone : Prop :=
  ∀ (r q : Reg) (s t s' t' : State), s.readX r = t.readX q →
    (exec (.consM r) s = .next s' → exec (.consM q) t = .next t' →
      s.err = false → t.err = false → s'.err = false → t'.err = false → s'.mont = t'.mont) ∧
    (exec (.consB r) s = .next s' → exec (.consB q) t = .next t' →
      s.err = false → t.err = false → s'.err = false → t'.err = false → s'.barrett = t'.barrett)

/-- R125: the shared contract of the three engines and the round-trip law. -/
def Obligations.EnginesShareOneContract : Prop :=
  ∀ (e : Engine) (s : State) (ra rb r1 r2 r3 r4 : Reg),
    contextReady s e → s.err = false → s.readX ra < modulusOf s e → s.readX rb < modulusOf s e →
    r1 ≠ rb → r1 ≠ r2 →
    (∃ t, execAll [dinOf e r1 ra, dinOf e r2 rb, mulOf e r3 r1 r2, doutOf e r4 r3] s = .next t ∧
      t.err = false ∧ t.readX r4 = s.readX ra * s.readX rb % modulusOf s e) ∧
    (∃ t, execAll [dinOf e r1 ra, doutOf e r4 r1] s = .next t ∧ t.err = false ∧ t.readX r4 = s.readX ra)

/-- R131: the harness fold FOLD.e, as the bus accesses the host sends, leaves the product of the starting residue and every
multiplicand modulo `N` in `X[4]` on every engine, with no error, and the host reads that value back. -/
def Obligations.FoldComputesProductOnEveryEngine : Prop :=
  ∀ (e : Engine) (s : State) (n x0 : Nat) (vs : List Nat) (rest : List HostEvent),
    s.Inv → s.phase = .running → s.err = false →
    1 ≤ n → bitlength n ≤ s.cfg.mw → (e = .montgomery → n % 2 = 1) →
    x0 < n → (∀ v ∈ vs, v < n) →
    s.inbox = foldProgram s.cfg e n x0 vs ++ rest →
    ∃ t oks ws, runSteps (foldProgram s.cfg e n x0 vs).length s = .next t ∧
      t.err = false ∧ t.inbox = rest ∧
      t.readX 4 = x0 * vs.prod % n ∧
      t.log = s.log ++ oks ++ ws.map Response.data ∧ ws.length = s.cfg.mw / 16 ∧
      assembleWords ws = x0 * vs.prod % n

/-! ## Invariants and whole-machine rules -/

/-- R260: the machine right after reset meets the invariant, with every legal choice of the parameters. -/
def Obligations.ResetMeetsInvariant : Prop :=
  State.reset.Inv ∧ ∀ c : Config, c.legal = true → (State.resetOf c).Inv

/-- R20, R28, R29, R35, R36, R39, R260: from every state that meets the invariant, a step gives a state that meets it. -/
def Obligations.StepKeepsInvariant : Prop :=
  ∀ s t : State, s.Inv → step s = .next t → t.Inv

/-- No step changes the parameters (the model's own choice to keep them in the state, log entry 1). -/
def Obligations.ParametersNeverChange : Prop :=
  ∀ s t : State, step s = .next t → t.cfg = s.cfg

/-- R262: the reset input is the only event that clears a context's valid bit; contexts survive `CLRERR`, every error and
every dropped command. -/
def Obligations.OnlyResetClearsValidBits : Prop :=
  (∀ (s t : State) (e : Engine), step s = .next t → validOf s e = true → validOf t e = false →
    ∃ rest, s.inbox = .assertReset :: rest ∨ s.inbox = .releaseReset :: rest) ∧
  (∀ (w : Word) (s t : State), issue w s = .next t → t.err = true ∨ w = 0x0000001C →
    t.naive = s.naive ∧ t.mont = s.mont ∧ t.barrett = s.barrett)

/-- R234: the error state is left only by the word of `CLRERR` written to `CMD` or by the reset input. -/
def Obligations.OnlyClrerrOrResetLeavesErrorState : Prop :=
  ∀ s t : State, step s = .next t → s.err = true → t.err = false →
    ∃ rest, s.inbox = .assertReset :: rest ∨ s.inbox = .releaseReset :: rest ∨
      ∃ data, s.inbox = .write 32 (s.cfg.base + 0x0010) data :: rest ∧ BitVec.ofNat 32 data = 0x0000001C#32

/-- R27: a context is written only by the `CONS` of its own engine, and a bus write of a context word is a bus error that
changes nothing. -/
def Obligations.ContextsWrittenByOwnConsOnly : Prop :=
  (∀ (i : Instr) (s t : State), exec i s = .next t →
    (t.naive ≠ s.naive → ∃ rs1, i = .consN rs1) ∧
    (t.mont ≠ s.mont → ∃ rs1, i = .consM rs1) ∧
    (t.barrett ≠ s.barrett → ∃ rs1, i = .consB rs1)) ∧
  (∀ (s : State) (off : Nat) (w : Word), s.cfg.legal = true → 0x2000 ≤ off → off < 0x2800 →
    busWrite off w s = .next { s with log := s.log ++ [.busError] })

/-- R38, R39: only a successful `MUL.M`, `DOUT.M` or `RED.M` writes `FSUB`, only a successful `MUL.B` or `RED.B` writes
`BCNT`, and a command that raises writes neither. -/
def Obligations.FlagsWrittenByTheirCommandsOnly : Prop :=
  ∀ (i : Instr) (s t : State), exec i s = .next t →
    (t.fsub ≠ s.fsub →
      (∃ rd a b, i = .mulM rd a b) ∨ (∃ rd a, i = .doutM rd a) ∨ (∃ rd a, i = .redM rd a)) ∧
    (t.bcnt ≠ s.bcnt → (∃ rd a b, i = .mulB rd a b) ∨ (∃ rd a, i = .redB rd a)) ∧
    (s.err = false → t.err = true → t.fsub = s.fsub ∧ t.bcnt = s.bcnt)

/-- The frame of every command (R20, R34, R92): a command changes no data register but the one its `rd` field names, and
never `CTRL`, the reset and supply, the parameters, the host's events or the responses. -/
def Obligations.CommandFrame : Prop :=
  ∀ (i : Instr) (s t : State), exec i s = .next t →
    (∀ r : Reg, rdOf i ≠ some r → t.readX r = s.readX r) ∧
    t.irqen = s.irqen ∧ t.phase = s.phase ∧ t.cfg = s.cfg ∧ t.inbox = s.inbox ∧ t.log = s.log ∧
    (i ≠ .clrerr → t.eovf = s.eovf)

/-- R40: no command reads `FSUB` or `BCNT`: with them changed, a command does the same to everything else; each flag is either
written with the same value in both runs or left as it was in both; and outside the error state it is written exactly where
the flag's own command completes without an error (R38, R39), whatever it held. -/
def Obligations.CommandsIgnoreFlags : Prop :=
  ∀ (i : Instr) (s : State) (f : Bool) (c : BitVec 3), ∃ t t', exec i s = .next t ∧
    exec i { s with fsub := f, bcnt := c } = .next t' ∧ { t' with fsub := t.fsub, bcnt := t.bcnt } = t ∧
    (t'.fsub = t.fsub ∨ (t.fsub = s.fsub ∧ t'.fsub = f)) ∧
    (t'.bcnt = t.bcnt ∨ (t.bcnt = s.bcnt ∧ t'.bcnt = c)) ∧
    (s.err = false →
      (if writesFsub i = true ∧ t.err = false then t'.fsub = t.fsub else t.fsub = s.fsub ∧ t'.fsub = f) ∧
      (if writesBcnt i = true ∧ t.err = false then t'.bcnt = t.bcnt else t.bcnt = s.bcnt ∧ t'.bcnt = c))

/-- R123: a command reads the context of its own engine only: with the other contexts changed it does the same, and leaves
them as they were. -/
def Obligations.CommandsIgnoreOtherContexts : Prop :=
  ∀ (i : Instr) (s : State) (cn : NaiveCtx) (cm : MontCtx) (cb : BarrettCtx),
    (engineOf i ≠ some .naive → ∃ t, exec i s = .next t ∧
      exec i { s with naive := cn } = .next { t with naive := cn } ∧ t.naive = s.naive) ∧
    (engineOf i ≠ some .montgomery → ∃ t, exec i s = .next t ∧
      exec i { s with mont := cm } = .next { t with mont := cm } ∧ t.mont = s.mont) ∧
    (engineOf i ≠ some .barrett → ∃ t, exec i s = .next t ∧
      exec i { s with barrett := cb } = .next { t with barrett := cb } ∧ t.barrett = s.barrett)

/-- R231, R232: a command that raises writes `ERR`, a cause of R221 with an operand it allows, and its own word in `ECMD`,
and has no other effect. -/
def Obligations.ErrorsArePrecise : Prop :=
  ∀ (i : Instr) (s t : State), s.err = false → exec i s = .next t → t.err = true →
    ∃ (e : Cause) (o : Opnd), e ≠ .none ∧ causeAllows e o = true ∧
      t = { s with err := true, cause := e, opnd := o, ecmd := encode i }

/-- R235: in the error state every word but `0x0000001C` is dropped and only sets `EOVF`. -/
def Obligations.ErrorStateDropsCommands : Prop :=
  ∀ (w : Word) (s : State), s.err = true → w ≠ 0x0000001C → issue w s = .next { s with eovf := true }

/-! ## The step, the bus and the window -/

/-- R120, R121, R215, R235, R248, R270: a step of a running block whose next event writes any word to `CMD` is the command
cycle of that word on the state without the event, and then the response OK. In the error state the cycle is `CLRERR` for its
one word and sets `EOVF` alone for every other; outside it an illegal word raises `ILLEGAL_COMMAND`, and a word that decodes to
a command is that command's rule. -/
def Obligations.StepRunsDecodedCommand : Prop :=
  ∀ (s : State) (w : Word) (rest : List HostEvent),
    s.phase = .running → s.inbox = .write 32 (s.cfg.base + 0x0010) w.toNat :: rest →
    ∃ t, issue w { s with inbox := rest } = .next t ∧ step s = .next { t with log := t.log ++ [.ok] } ∧
      (s.err = true → w = 0x0000001C → exec .clrerr { s with inbox := rest } = .next t) ∧
      (s.err = true → w ≠ 0x0000001C → t = { s with inbox := rest, eovf := true }) ∧
      (s.err = false → decode w = none →
        t = { s with inbox := rest, err := true, cause := .illegalCommand, opnd := .none, ecmd := w }) ∧
      (s.err = false → ∀ i, decode w = some i → exec i { s with inbox := rest } = .next t)

/-- With no event a step is a next state that changes nothing. This is the model's own deduction (log entry 17, DEDUCED): R250
says that nothing is in flight between two accesses, and not what a step of a model without an access is. -/
def Obligations.IdleStepChangesNothing : Prop :=
  ∀ s : State, s.inbox = [] → step s = .next s

/-- R66: with legal parameters, the mapped words of the window are exactly those of the map, at their offsets. -/
def Obligations.WindowMapIsExact : Prop :=
  ∀ (c : Config) (off : Nat) (sl : Slot), c.legal = true →
    (slotAt c off = some sl ↔ off = slotOffset sl ∧ slotMapped c sl)

/-- R62, R63, R64, R65, R228: an access of the window gets a bus error exactly when its width is not 32 bits, its offset is
misaligned or unmapped, it writes a read-only word or reads `CMD`; and a bus error changes nothing of the block. -/
def Obligations.BusErrorsChangeNothing : Prop :=
  ∀ (s : State) (width off data : Nat), s.phase = .running → off < 0x4000 →
    (width ≠ 32 ∨ off % 4 ≠ 0 ∨ slotAt s.cfg off = none ∨ slotAt s.cfg off = some .cmd →
      performRead width (s.cfg.base + off) s = .next { s with log := s.log ++ [.busError] }) ∧
    (width = 32 → (∃ sl, slotAt s.cfg off = some sl ∧ sl ≠ .cmd) →
      ∃ v, performRead width (s.cfg.base + off) s = .next { s with log := s.log ++ [.data v] }) ∧
    (width ≠ 32 ∨ off % 4 ≠ 0 ∨ (∀ sl, slotAt s.cfg off = some sl → slotWritable sl = false) →
      performWrite width (s.cfg.base + off) data s = .next { s with log := s.log ++ [.busError] }) ∧
    (width = 32 → (∃ sl, slotAt s.cfg off = some sl ∧ slotWritable sl = true) →
      ∃ t : State, performWrite width (s.cfg.base + off) data s = .next { t with log := s.log ++ [.ok] })

/-- R73: no read has a side effect on the block; a write of a data-register word or of `CTRL` repeated is the same as once;
and a write of `CMD` repeated can differ. -/
def Obligations.ReadsAndPlainWritesAreIdempotent : Prop :=
  (∀ (s t : State) (width addr : Nat), performRead width addr s = .next t → { t with log := s.log } = s) ∧
  (∀ (s t u : State) (off : Nat) (w : Word), slotAt s.cfg off ≠ some .cmd →
    busWrite off w s = .next t → busWrite off w t = .next u → { u with log := t.log } = t) ∧
  (∃ (s t u : State) (w : Word), busWrite 0x0010 w s = .next t ∧ busWrite 0x0010 w t = .next u ∧
    { u with log := t.log } ≠ t)

/-- R67: a word written into a data register replaces exactly its 32 bits: every word of the window then reads as before but
that one, which reads as written. -/
def Obligations.DataWordWriteReplacesThatWord : Prop :=
  ∀ (s : State) (i : Reg) (j : Nat) (w : Word), s.cfg.legal = true → 16 * j < s.cfg.mw →
    ∃ t, busWrite (0x1000 + 0x100 * i.val + 4 * j) w s = .next { t with log := s.log ++ [.ok] } ∧
      t = { s with x := s.x.set i.val (s.readX i - s.readX i / 2 ^ (32 * j) % 2 ^ 32 * 2 ^ (32 * j) +
        w.toNat * 2 ^ (32 * j)) } ∧
      busRead t (0x1000 + 0x100 * i.val + 4 * j) = some w ∧
      ∀ off, off ≠ 0x1000 + 0x100 * i.val + 4 * j → busRead t off = busRead s off

/-- R34, R68: a write of `CTRL` stores bit 0 as `IRQEN` and ignores the rest, whose bits read 0. -/
def Obligations.CtrlStoresBitZero : Prop :=
  ∀ (s : State) (w : Word),
    busWrite 0x000C w s = .next { s with irqen := w.getLsbD 0, log := s.log ++ [.ok] } ∧
    (∀ v, busRead s 0x000C = some v → v.getLsbD 0 = s.irqen ∧ ∀ k, 1 ≤ k → v.getLsbD k = false) ∧
    (busRead s 0x000C).isSome = true

/-- R31, R32, R33, R35, R36: what `ID`, `PARAM`, `STATUS`, `ECAUSE` and `ECMD` read, bit by bit, reserved bits 0; the codes of
`ECAUSE` are the numbers of R221 and R35. -/
def Obligations.StatusWordsAsLaidOut : Prop :=
  ∀ s : State, s.cfg.legal = true →
    busRead s 0x0000 = some 0x52454443 ∧
    (∃ p, busRead s 0x0004 = some p ∧ p.toNat = s.cfg.mw + 8 * 2 ^ 16 + 1 * 2 ^ 20) ∧
    (∃ v, busRead s 0x0008 = some v ∧ v.toNat =
      s.err.toNat + 2 * s.eovf.toNat + 4 * s.naive.nv.toNat + 8 * s.mont.mv.toNat + 16 * s.barrett.bv.toNat +
        32 * s.fsub.toNat + 256 * s.bcnt.toNat) ∧
    (∃ v, busRead s 0x0014 = some v ∧
      (s.cause = .none → v.toNat % 16 = 0) ∧
      (s.cause = .invalidModulus → v.toNat % 16 = 1) ∧
      (s.cause = .inverseNotFound → v.toNat % 16 = 2) ∧
      (s.cause = .operandRange → v.toNat % 16 = 3) ∧
      (s.cause = .notConfigured → v.toNat % 16 = 4) ∧
      (s.cause = .illegalCommand → v.toNat % 16 = 5) ∧
      (s.opnd = .none → v.toNat / 16 = 0) ∧
      (s.opnd = .rs1 → v.toNat / 16 = 1) ∧
      (s.opnd = .rs2 → v.toNat / 16 = 2)) ∧
    busRead s 0x0018 = some s.ecmd

/-- R240: `err_irq` is `ERR` and `IRQEN`; `CLRERR` and reset lower it; `IRQEN = 0` masks it and keeps the error; powered, the
platform's line carries it. -/
def Obligations.ErrIrqFollowsErrorAndEnable : Prop :=
  ∀ s : State,
    (s.errIrq = true ↔ s.err = true ∧ s.irqen = true) ∧
    (s.phase ≠ .powerLost → s.irqOutput = some (s.cfg.errIrqLine, s.errIrq)) ∧
    (∀ t, exec .clrerr s = .next t → t.errIrq = false) ∧
    (assertReset s).errIrq = false ∧
    (∀ (w : Word) (t : State), w.getLsbD 0 = false → busWrite 0x000C w s = .next t →
      t.errIrq = false ∧ t.err = s.err ∧ t.cause = s.cause ∧ t.ecmd = s.ecmd)

/-- R260, R261: asserting reset gives every piece of state its reset value, and releasing it leaves them so, with the block
running; the host's events and the responses it was given stay. -/
def Obligations.ResetInputClearsEverything : Prop :=
  ∀ (s : State) (rest : List HostEvent), s.inbox = .assertReset :: rest →
    ∃ t, step s = .next t ∧ t.inbox = rest ∧ t.log = s.log ∧ t.cfg = s.cfg ∧ t.phase = .inReset ∧
      (∀ r : Reg, t.readX r = 0) ∧
      t.naive = { nv := false, nn := 0 } ∧
      t.mont = { mv := false, mn := 0, mk := 0, mr := 0, mnp := 0 } ∧
      t.barrett = { bv := false, bn := 0, bk := 0, bmu := 0 } ∧
      t.err = false ∧ t.eovf = false ∧ t.fsub = false ∧ t.bcnt = 0 ∧ t.irqen = false ∧
      t.cause = .none ∧ t.opnd = .none ∧ t.ecmd = 0 ∧
      ∀ rest', rest = .releaseReset :: rest' →
        step t = .next { t with phase := .running, inbox := rest' }

/-- R263: an access of the window made while reset is asserted has no step. -/
def Obligations.AccessDuringResetHasNoStep : Prop :=
  ∀ (s : State) (width off data : Nat) (rest : List HostEvent), s.phase = .inReset → off < 0x4000 →
    (s.inbox = .read width (s.cfg.base + off) :: rest → step s = .refused .accessDuringReset) ∧
    (s.inbox = .write width (s.cfg.base + off) data :: rest → step s = .refused .accessDuringReset)

/-- R249 and the treatment 'stuck until reset' of 93_implementation_defined.md: after power loss an access of the window
stops the model, and reset leads out of it. -/
def Obligations.PowerLossIsStuckUntilReset : Prop :=
  ∀ (s : State) (width off data : Nat) (rest : List HostEvent), off < 0x4000 →
    (losePower s).phase = .powerLost ∧
    (s.phase = .powerLost →
      (s.inbox = .read width (s.cfg.base + off) :: rest → step s = .fault .powerLost) ∧
      (s.inbox = .write width (s.cfg.base + off) data :: rest → step s = .fault .powerLost) ∧
      (s.inbox = .assertReset :: .releaseReset :: rest →
        runSteps 2 s = .next { State.resetOf s.cfg with inbox := rest, log := s.log }))

/-- R260: what reset leaves does not depend on a command that ran just before it, so a command that reset interrupts may be
taken as performed or as not performed. -/
def Obligations.ResetErasesTheCommandBefore : Prop :=
  ∀ (w : Word) (s t : State), issue w s = .next t → assertReset t = assertReset s

/-- Which bus addresses are the block's (R60, R9): an access outside the window changes nothing of the block, in any phase.
That the block answers nothing there is the model's reading (log entry 5). -/
def Obligations.AccessOutsideWindowIsNotTheBlocks : Prop :=
  ∀ (s : State) (width addr data : Nat), (addr < s.cfg.base ∨ s.cfg.base + 0x4000 ≤ addr) →
    performRead width addr s = .next { s with log := s.log ++ [.notMine] } ∧
    performWrite width addr data s = .next { s with log := s.log ++ [.notMine] }

/-- R102: `LDX xi, v` loads `v` whole into `X[i]` and changes nothing else. -/
def Obligations.LdxLoadsRegister : Prop :=
  ∀ (s : State) (i : Reg) (v : Nat) (rest : List HostEvent),
    s.Inv → s.phase = .running → v < 2 ^ (2 * s.cfg.mw) → s.inbox = ldx s.cfg i v ++ rest →
    runSteps (ldx s.cfg i v).length s = .next { s with
      x := s.x.set i.val v
      inbox := rest
      log := s.log ++ List.replicate (s.cfg.mw / 16) Response.ok }

/-- R102: `RDX xi` gives the host the words of `X[i]`, which assemble to its value, and changes nothing. -/
def Obligations.RdxReadsRegister : Prop :=
  ∀ (s : State) (i : Reg) (rest : List HostEvent),
    s.Inv → s.phase = .running → s.inbox = rdx s.cfg i ++ rest →
    ∃ ws : List Word, runSteps (rdx s.cfg i).length s = .next { s with
        inbox := rest
        log := s.log ++ ws.map Response.data } ∧
      ws.length = s.cfg.mw / 16 ∧ assembleWords ws = s.readX i

/-- R102, R66, R67: `RDCTX` gives the host the words of a context register, which assemble to its value (the bits above its
width read 0), and changes nothing. -/
def Obligations.RdctxReadsContextRegister : Prop :=
  ∀ (s : State) (n : CtxReg) (rest : List HostEvent),
    s.Inv → s.phase = .running → s.inbox = rdctx s.cfg n ++ rest →
    ∃ ws : List Word, runSteps (rdctx s.cfg n).length s = .next { s with
        inbox := rest
        log := s.log ++ ws.map Response.data } ∧
      assembleWords ws = ctxValue s n

/-- R101: the line of a command, with or without a comment, is read back as the command. -/
def Obligations.AssemblerReadsItsOwnLines : Prop :=
  ∀ (i : Instr) (comment : List Char),
    asmParse (asmText i) = some i ∧ asmParse (asmText i ++ '#' :: comment) = some i
end

