-- ==== Sys2Proof/Laws/State.lean ====
section
/-! SUPPORT. One lemma per field for each named update of the state: what it holds after, so that no later proof unfolds a record update. -/

namespace Sys2Proof.Machine

@[simp] theorem State.writeX_cfg (s : State) (r : Reg) (v : Nat) : (s.writeX r v).cfg = s.cfg := rfl
@[simp] theorem State.writeX_x (s : State) (r : Reg) (v : Nat) : (s.writeX r v).x = s.x.set r.val v := rfl
@[simp] theorem State.writeX_naive (s : State) (r : Reg) (v : Nat) : (s.writeX r v).naive = s.naive := rfl
@[simp] theorem State.writeX_mont (s : State) (r : Reg) (v : Nat) : (s.writeX r v).mont = s.mont := rfl
@[simp] theorem State.writeX_barrett (s : State) (r : Reg) (v : Nat) : (s.writeX r v).barrett = s.barrett := rfl
@[simp] theorem State.writeX_err (s : State) (r : Reg) (v : Nat) : (s.writeX r v).err = s.err := rfl
@[simp] theorem State.writeX_eovf (s : State) (r : Reg) (v : Nat) : (s.writeX r v).eovf = s.eovf := rfl
@[simp] theorem State.writeX_fsub (s : State) (r : Reg) (v : Nat) : (s.writeX r v).fsub = s.fsub := rfl
@[simp] theorem State.writeX_bcnt (s : State) (r : Reg) (v : Nat) : (s.writeX r v).bcnt = s.bcnt := rfl
@[simp] theorem State.writeX_irqen (s : State) (r : Reg) (v : Nat) : (s.writeX r v).irqen = s.irqen := rfl
@[simp] theorem State.writeX_cause (s : State) (r : Reg) (v : Nat) : (s.writeX r v).cause = s.cause := rfl
@[simp] theorem State.writeX_opnd (s : State) (r : Reg) (v : Nat) : (s.writeX r v).opnd = s.opnd := rfl
@[simp] theorem State.writeX_ecmd (s : State) (r : Reg) (v : Nat) : (s.writeX r v).ecmd = s.ecmd := rfl
@[simp] theorem State.writeX_phase (s : State) (r : Reg) (v : Nat) : (s.writeX r v).phase = s.phase := rfl
@[simp] theorem State.writeX_inbox (s : State) (r : Reg) (v : Nat) : (s.writeX r v).inbox = s.inbox := rfl
@[simp] theorem State.writeX_log (s : State) (r : Reg) (v : Nat) : (s.writeX r v).log = s.log := rfl

@[simp] theorem State.raise_cfg (s : State) (w : Word) (e : Cause) (o : Opnd) : (s.raise w e o).cfg = s.cfg := rfl
@[simp] theorem State.raise_x (s : State) (w : Word) (e : Cause) (o : Opnd) : (s.raise w e o).x = s.x := rfl
@[simp] theorem State.raise_naive (s : State) (w : Word) (e : Cause) (o : Opnd) : (s.raise w e o).naive = s.naive := rfl
@[simp] theorem State.raise_mont (s : State) (w : Word) (e : Cause) (o : Opnd) : (s.raise w e o).mont = s.mont := rfl
@[simp] theorem State.raise_barrett (s : State) (w : Word) (e : Cause) (o : Opnd) : (s.raise w e o).barrett = s.barrett := rfl
@[simp] theorem State.raise_err (s : State) (w : Word) (e : Cause) (o : Opnd) : (s.raise w e o).err = true := rfl
@[simp] theorem State.raise_eovf (s : State) (w : Word) (e : Cause) (o : Opnd) : (s.raise w e o).eovf = s.eovf := rfl
@[simp] theorem State.raise_fsub (s : State) (w : Word) (e : Cause) (o : Opnd) : (s.raise w e o).fsub = s.fsub := rfl
@[simp] theorem State.raise_bcnt (s : State) (w : Word) (e : Cause) (o : Opnd) : (s.raise w e o).bcnt = s.bcnt := rfl
@[simp] theorem State.raise_irqen (s : State) (w : Word) (e : Cause) (o : Opnd) : (s.raise w e o).irqen = s.irqen := rfl
@[simp] theorem State.raise_cause (s : State) (w : Word) (e : Cause) (o : Opnd) : (s.raise w e o).cause = e := rfl
@[simp] theorem State.raise_opnd (s : State) (w : Word) (e : Cause) (o : Opnd) : (s.raise w e o).opnd = o := rfl
@[simp] theorem State.raise_ecmd (s : State) (w : Word) (e : Cause) (o : Opnd) : (s.raise w e o).ecmd = w := rfl
@[simp] theorem State.raise_phase (s : State) (w : Word) (e : Cause) (o : Opnd) : (s.raise w e o).phase = s.phase := rfl
@[simp] theorem State.raise_inbox (s : State) (w : Word) (e : Cause) (o : Opnd) : (s.raise w e o).inbox = s.inbox := rfl
@[simp] theorem State.raise_log (s : State) (w : Word) (e : Cause) (o : Opnd) : (s.raise w e o).log = s.log := rfl

@[simp] theorem State.drop_cfg (s : State) : s.drop.cfg = s.cfg := rfl
@[simp] theorem State.drop_x (s : State) : s.drop.x = s.x := rfl
@[simp] theorem State.drop_naive (s : State) : s.drop.naive = s.naive := rfl
@[simp] theorem State.drop_mont (s : State) : s.drop.mont = s.mont := rfl
@[simp] theorem State.drop_barrett (s : State) : s.drop.barrett = s.barrett := rfl
@[simp] theorem State.drop_err (s : State) : s.drop.err = s.err := rfl
@[simp] theorem State.drop_eovf (s : State) : s.drop.eovf = true := rfl
@[simp] theorem State.drop_fsub (s : State) : s.drop.fsub = s.fsub := rfl
@[simp] theorem State.drop_bcnt (s : State) : s.drop.bcnt = s.bcnt := rfl
@[simp] theorem State.drop_irqen (s : State) : s.drop.irqen = s.irqen := rfl
@[simp] theorem State.drop_cause (s : State) : s.drop.cause = s.cause := rfl
@[simp] theorem State.drop_opnd (s : State) : s.drop.opnd = s.opnd := rfl
@[simp] theorem State.drop_ecmd (s : State) : s.drop.ecmd = s.ecmd := rfl
@[simp] theorem State.drop_phase (s : State) : s.drop.phase = s.phase := rfl
@[simp] theorem State.drop_inbox (s : State) : s.drop.inbox = s.inbox := rfl
@[simp] theorem State.drop_log (s : State) : s.drop.log = s.log := rfl

@[simp] theorem State.clearError_cfg (s : State) : s.clearError.cfg = s.cfg := rfl
@[simp] theorem State.clearError_x (s : State) : s.clearError.x = s.x := rfl
@[simp] theorem State.clearError_naive (s : State) : s.clearError.naive = s.naive := rfl
@[simp] theorem State.clearError_mont (s : State) : s.clearError.mont = s.mont := rfl
@[simp] theorem State.clearError_barrett (s : State) : s.clearError.barrett = s.barrett := rfl
@[simp] theorem State.clearError_err (s : State) : s.clearError.err = false := rfl
@[simp] theorem State.clearError_eovf (s : State) : s.clearError.eovf = false := rfl
@[simp] theorem State.clearError_fsub (s : State) : s.clearError.fsub = s.fsub := rfl
@[simp] theorem State.clearError_bcnt (s : State) : s.clearError.bcnt = s.bcnt := rfl
@[simp] theorem State.clearError_irqen (s : State) : s.clearError.irqen = s.irqen := rfl
@[simp] theorem State.clearError_cause (s : State) : s.clearError.cause = .none := rfl
@[simp] theorem State.clearError_opnd (s : State) : s.clearError.opnd = .none := rfl
@[simp] theorem State.clearError_ecmd (s : State) : s.clearError.ecmd = 0 := rfl
@[simp] theorem State.clearError_phase (s : State) : s.clearError.phase = s.phase := rfl
@[simp] theorem State.clearError_inbox (s : State) : s.clearError.inbox = s.inbox := rfl
@[simp] theorem State.clearError_log (s : State) : s.clearError.log = s.log := rfl

@[simp] theorem State.applyReset_cfg (s : State) : s.applyReset.cfg = s.cfg := rfl
@[simp] theorem State.applyReset_x (s : State) : s.applyReset.x = Vector.replicate 8 0 := rfl
@[simp] theorem State.applyReset_naive (s : State) : s.applyReset.naive = ({ nv := false, nn := 0 } : NaiveCtx) := rfl
@[simp] theorem State.applyReset_mont (s : State) : s.applyReset.mont = ({ mv := false, mn := 0, mk := 0, mr := 0, mnp := 0 } : MontCtx) := rfl
@[simp] theorem State.applyReset_barrett (s : State) : s.applyReset.barrett = ({ bv := false, bn := 0, bk := 0, bmu := 0 } : BarrettCtx) := rfl
@[simp] theorem State.applyReset_err (s : State) : s.applyReset.err = false := rfl
@[simp] theorem State.applyReset_eovf (s : State) : s.applyReset.eovf = false := rfl
@[simp] theorem State.applyReset_fsub (s : State) : s.applyReset.fsub = false := rfl
@[simp] theorem State.applyReset_bcnt (s : State) : s.applyReset.bcnt = 0 := rfl
@[simp] theorem State.applyReset_irqen (s : State) : s.applyReset.irqen = false := rfl
@[simp] theorem State.applyReset_cause (s : State) : s.applyReset.cause = .none := rfl
@[simp] theorem State.applyReset_opnd (s : State) : s.applyReset.opnd = .none := rfl
@[simp] theorem State.applyReset_ecmd (s : State) : s.applyReset.ecmd = 0 := rfl
@[simp] theorem State.applyReset_phase (s : State) : s.applyReset.phase = s.phase := rfl
@[simp] theorem State.applyReset_inbox (s : State) : s.applyReset.inbox = s.inbox := rfl
@[simp] theorem State.applyReset_log (s : State) : s.applyReset.log = s.log := rfl

@[simp] theorem State.respond_cfg (s : State) (r : Response) : (s.respond r).cfg = s.cfg := rfl
@[simp] theorem State.respond_x (s : State) (r : Response) : (s.respond r).x = s.x := rfl
@[simp] theorem State.respond_naive (s : State) (r : Response) : (s.respond r).naive = s.naive := rfl
@[simp] theorem State.respond_mont (s : State) (r : Response) : (s.respond r).mont = s.mont := rfl
@[simp] theorem State.respond_barrett (s : State) (r : Response) : (s.respond r).barrett = s.barrett := rfl
@[simp] theorem State.respond_err (s : State) (r : Response) : (s.respond r).err = s.err := rfl
@[simp] theorem State.respond_eovf (s : State) (r : Response) : (s.respond r).eovf = s.eovf := rfl
@[simp] theorem State.respond_fsub (s : State) (r : Response) : (s.respond r).fsub = s.fsub := rfl
@[simp] theorem State.respond_bcnt (s : State) (r : Response) : (s.respond r).bcnt = s.bcnt := rfl
@[simp] theorem State.respond_irqen (s : State) (r : Response) : (s.respond r).irqen = s.irqen := rfl
@[simp] theorem State.respond_cause (s : State) (r : Response) : (s.respond r).cause = s.cause := rfl
@[simp] theorem State.respond_opnd (s : State) (r : Response) : (s.respond r).opnd = s.opnd := rfl
@[simp] theorem State.respond_ecmd (s : State) (r : Response) : (s.respond r).ecmd = s.ecmd := rfl
@[simp] theorem State.respond_phase (s : State) (r : Response) : (s.respond r).phase = s.phase := rfl
@[simp] theorem State.respond_inbox (s : State) (r : Response) : (s.respond r).inbox = s.inbox := rfl
@[simp] theorem State.respond_log (s : State) (r : Response) : (s.respond r).log = s.log ++ [r] := rfl

@[simp] theorem State.writeFsub_cfg (s : State) (f : Bool) : (s.writeFsub f).cfg = s.cfg := rfl
@[simp] theorem State.writeFsub_x (s : State) (f : Bool) : (s.writeFsub f).x = s.x := rfl
@[simp] theorem State.writeFsub_naive (s : State) (f : Bool) : (s.writeFsub f).naive = s.naive := rfl
@[simp] theorem State.writeFsub_mont (s : State) (f : Bool) : (s.writeFsub f).mont = s.mont := rfl
@[simp] theorem State.writeFsub_barrett (s : State) (f : Bool) : (s.writeFsub f).barrett = s.barrett := rfl
@[simp] theorem State.writeFsub_err (s : State) (f : Bool) : (s.writeFsub f).err = s.err := rfl
@[simp] theorem State.writeFsub_eovf (s : State) (f : Bool) : (s.writeFsub f).eovf = s.eovf := rfl
@[simp] theorem State.writeFsub_fsub (s : State) (f : Bool) : (s.writeFsub f).fsub = f := rfl
@[simp] theorem State.writeFsub_bcnt (s : State) (f : Bool) : (s.writeFsub f).bcnt = s.bcnt := rfl
@[simp] theorem State.writeFsub_irqen (s : State) (f : Bool) : (s.writeFsub f).irqen = s.irqen := rfl
@[simp] theorem State.writeFsub_cause (s : State) (f : Bool) : (s.writeFsub f).cause = s.cause := rfl
@[simp] theorem State.writeFsub_opnd (s : State) (f : Bool) : (s.writeFsub f).opnd = s.opnd := rfl
@[simp] theorem State.writeFsub_ecmd (s : State) (f : Bool) : (s.writeFsub f).ecmd = s.ecmd := rfl
@[simp] theorem State.writeFsub_phase (s : State) (f : Bool) : (s.writeFsub f).phase = s.phase := rfl
@[simp] theorem State.writeFsub_inbox (s : State) (f : Bool) : (s.writeFsub f).inbox = s.inbox := rfl
@[simp] theorem State.writeFsub_log (s : State) (f : Bool) : (s.writeFsub f).log = s.log := rfl

@[simp] theorem State.writeBcnt_cfg (s : State) (c : Nat) : (s.writeBcnt c).cfg = s.cfg := rfl
@[simp] theorem State.writeBcnt_x (s : State) (c : Nat) : (s.writeBcnt c).x = s.x := rfl
@[simp] theorem State.writeBcnt_naive (s : State) (c : Nat) : (s.writeBcnt c).naive = s.naive := rfl
@[simp] theorem State.writeBcnt_mont (s : State) (c : Nat) : (s.writeBcnt c).mont = s.mont := rfl
@[simp] theorem State.writeBcnt_barrett (s : State) (c : Nat) : (s.writeBcnt c).barrett = s.barrett := rfl
@[simp] theorem State.writeBcnt_err (s : State) (c : Nat) : (s.writeBcnt c).err = s.err := rfl
@[simp] theorem State.writeBcnt_eovf (s : State) (c : Nat) : (s.writeBcnt c).eovf = s.eovf := rfl
@[simp] theorem State.writeBcnt_fsub (s : State) (c : Nat) : (s.writeBcnt c).fsub = s.fsub := rfl
@[simp] theorem State.writeBcnt_bcnt (s : State) (c : Nat) : (s.writeBcnt c).bcnt = BitVec.ofNat 3 (min c 7) := rfl
@[simp] theorem State.writeBcnt_irqen (s : State) (c : Nat) : (s.writeBcnt c).irqen = s.irqen := rfl
@[simp] theorem State.writeBcnt_cause (s : State) (c : Nat) : (s.writeBcnt c).cause = s.cause := rfl
@[simp] theorem State.writeBcnt_opnd (s : State) (c : Nat) : (s.writeBcnt c).opnd = s.opnd := rfl
@[simp] theorem State.writeBcnt_ecmd (s : State) (c : Nat) : (s.writeBcnt c).ecmd = s.ecmd := rfl
@[simp] theorem State.writeBcnt_phase (s : State) (c : Nat) : (s.writeBcnt c).phase = s.phase := rfl
@[simp] theorem State.writeBcnt_inbox (s : State) (c : Nat) : (s.writeBcnt c).inbox = s.inbox := rfl
@[simp] theorem State.writeBcnt_log (s : State) (c : Nat) : (s.writeBcnt c).log = s.log := rfl

@[simp] theorem State.writeCtrl_cfg (s : State) (w : Word) : (s.writeCtrl w).cfg = s.cfg := rfl
@[simp] theorem State.writeCtrl_x (s : State) (w : Word) : (s.writeCtrl w).x = s.x := rfl
@[simp] theorem State.writeCtrl_naive (s : State) (w : Word) : (s.writeCtrl w).naive = s.naive := rfl
@[simp] theorem State.writeCtrl_mont (s : State) (w : Word) : (s.writeCtrl w).mont = s.mont := rfl
@[simp] theorem State.writeCtrl_barrett (s : State) (w : Word) : (s.writeCtrl w).barrett = s.barrett := rfl
@[simp] theorem State.writeCtrl_err (s : State) (w : Word) : (s.writeCtrl w).err = s.err := rfl
@[simp] theorem State.writeCtrl_eovf (s : State) (w : Word) : (s.writeCtrl w).eovf = s.eovf := rfl
@[simp] theorem State.writeCtrl_fsub (s : State) (w : Word) : (s.writeCtrl w).fsub = s.fsub := rfl
@[simp] theorem State.writeCtrl_bcnt (s : State) (w : Word) : (s.writeCtrl w).bcnt = s.bcnt := rfl
@[simp] theorem State.writeCtrl_irqen (s : State) (w : Word) : (s.writeCtrl w).irqen = w.getLsbD 0 := rfl
@[simp] theorem State.writeCtrl_cause (s : State) (w : Word) : (s.writeCtrl w).cause = s.cause := rfl
@[simp] theorem State.writeCtrl_opnd (s : State) (w : Word) : (s.writeCtrl w).opnd = s.opnd := rfl
@[simp] theorem State.writeCtrl_ecmd (s : State) (w : Word) : (s.writeCtrl w).ecmd = s.ecmd := rfl
@[simp] theorem State.writeCtrl_phase (s : State) (w : Word) : (s.writeCtrl w).phase = s.phase := rfl
@[simp] theorem State.writeCtrl_inbox (s : State) (w : Word) : (s.writeCtrl w).inbox = s.inbox := rfl
@[simp] theorem State.writeCtrl_log (s : State) (w : Word) : (s.writeCtrl w).log = s.log := rfl

end Sys2Proof.Machine
end

