-- ==== Sys2Proof/Laws/Ops.lean ====
section
/-! SUPPORT. What the shared operations do, once each: the data registers, the checks of a command, bit slices and `bitlength`, and the words of a wide register. -/

namespace Sys2Proof.Machine

theorem State.readX_writeX (s : State) (a b : Reg) (v : Nat) :
    (s.writeX a v).readX b = if a = b then v else s.readX b := by
  simp only [State.readX, State.writeX_x, Vector.getElem_set, Fin.ext_iff]

@[simp] theorem State.readX_writeX_same (s : State) (a : Reg) (v : Nat) : (s.writeX a v).readX a = v := by
  simp [State.readX_writeX]

theorem State.readX_writeX_other (s : State) {a b : Reg} (v : Nat) (h : a ≠ b) :
    (s.writeX a v).readX b = s.readX b := by
  simp [State.readX_writeX, h]

/-- Reading a register depends on the registers alone. -/
theorem State.readX_congr {s t : State} (h : t.x = s.x) (r : Reg) : t.readX r = s.readX r := by
  simp only [State.readX, h]

@[simp] theorem State.readX_raise (s : State) (w : Word) (e : Cause) (o : Opnd) (r : Reg) :
    (s.raise w e o).readX r = s.readX r := rfl

@[simp] theorem State.readX_drop (s : State) (r : Reg) : s.drop.readX r = s.readX r := rfl

@[simp] theorem State.readX_clearError (s : State) (r : Reg) : s.clearError.readX r = s.readX r := rfl

@[simp] theorem State.readX_respond (s : State) (p : Response) (r : Reg) : (s.respond p).readX r = s.readX r := rfl

@[simp] theorem State.readX_writeFsub (s : State) (f : Bool) (r : Reg) : (s.writeFsub f).readX r = s.readX r := rfl

@[simp] theorem State.readX_writeBcnt (s : State) (c : Nat) (r : Reg) : (s.writeBcnt c).readX r = s.readX r := rfl

@[simp] theorem State.readX_writeCtrl (s : State) (w : Word) (r : Reg) : (s.writeCtrl w).readX r = s.readX r := rfl

@[simp] theorem State.readX_applyReset (s : State) (r : Reg) : s.applyReset.readX r = 0 := by
  simp only [State.readX, State.applyReset_x, Vector.getElem_replicate]

/-- The end of a command rule answers a next state: the command's own error, or the commit. -/
theorem conclude_cases (i : Instr) (cs : List Check) (commit s : State) :
    (∃ e o, firstFailure cs = some (e, o) ∧ conclude i cs commit s = .next (s.raise (encode i) e o)) ∨
      (firstFailure cs = none ∧ conclude i cs commit s = .next commit) := by
  cases h : firstFailure cs with
  | none => exact .inr ⟨rfl, by simp only [conclude, h]⟩
  | some p => exact .inl ⟨p.1, p.2, rfl, by simp only [conclude, h]⟩

/-- A command whose checks all hold commits. -/
theorem conclude_commits (i : Instr) (cs : List Check) (commit s : State) (h : ∀ c ∈ cs, c.fails = false) :
    conclude i cs commit s = .next commit := by
  have hn : firstFailure cs = none := by
    induction cs with
    | nil => rfl
    | cons c cs ih =>
      have hc : c.fails = false := h c (by simp)
      simp only [firstFailure, hc, Bool.false_eq_true, if_false]
      exact ih fun d hd => h d (by simp [hd])
  simp only [conclude, hn]

/-- A command raises the check that fails after checks that hold. -/
theorem conclude_raises (i : Instr) (pre post : List Check) (c : Check) (commit s : State)
    (hp : ∀ d ∈ pre, d.fails = false) (hc : c.fails = true) :
    conclude i (pre ++ c :: post) commit s = .next (s.raise (encode i) c.cause c.opnd) := by
  have hs : firstFailure (pre ++ c :: post) = some (c.cause, c.opnd) := by
    induction pre with
    | nil => simp only [List.nil_append, firstFailure, hc, if_true]
    | cons d ds ih =>
      have hd : d.fails = false := hp d (by simp)
      simp only [List.cons_append, firstFailure, hd, Bool.false_eq_true, if_false]
      exact ih fun e he => hp e (by simp [he])
  simp only [conclude, hs]

@[simp] theorem needsContext_fails (v : Bool) : (needsContext v).fails = !v := rfl

@[simp] theorem needsBelow_fails (v b : Nat) (o : Opnd) : (needsBelow v b o).fails = decide (b ≤ v) := rfl

@[simp] theorem needsPositive_fails (v : Nat) (o : Opnd) : (needsPositive v o).fails = decide (v = 0) := rfl

@[simp] theorem needsCoprime_fails (g : Nat) : (needsCoprime g).fails = decide (g ≠ 1) := rfl

/-- R13: a value is below two to its bit length. -/
theorem lt_two_pow_bitlength (v : Nat) : v < 2 ^ bitlength v := by
  unfold bitlength
  split
  · subst_vars; simp
  · exact Nat.lt_log2_self

/-- R13: a positive value is at least two to one less than its bit length. -/
theorem two_pow_le_of_pos {v : Nat} (h : 0 < v) : 2 ^ (bitlength v - 1) ≤ v := by
  unfold bitlength
  rw [if_neg (by omega)]
  simpa using Nat.log2_self_le (by omega)

/-- R13: a positive value has at least one bit. -/
theorem bitlength_pos {v : Nat} (h : 0 < v) : 0 < bitlength v := by
  unfold bitlength
  rw [if_neg (by omega)]
  omega

/-- A value has at most `n` bits exactly when it is below `2^n`. -/
theorem bitlength_le_iff (v n : Nat) : bitlength v ≤ n ↔ v < 2 ^ n := by
  constructor
  · intro h
    exact lt_of_lt_of_le (lt_two_pow_bitlength v) (Nat.pow_le_pow_right (by omega) h)
  · intro h
    by_contra hn
    have hv : 0 < v := by
      rcases Nat.eq_zero_or_pos v with rfl | hv
      · simp [bitlength] at hn
      · exact hv
    have h1 : 2 ^ n ≤ 2 ^ (bitlength v - 1) := Nat.pow_le_pow_right (by omega) (by omega)
    have := two_pow_le_of_pos hv
    omega

/-- A slice is below two to its width. -/
theorem bits_lt (v hi lo : Nat) : bits v hi lo < 2 ^ (hi - lo + 1) := Nat.mod_lt _ (by positivity)

/-- Word `j` of a wide register, as a number. -/
theorem wordOf_toNat (v j : Nat) : (wordOf v j).toNat = v / 2 ^ (32 * j) % 2 ^ 32 := by
  have h : 32 * j + 31 - 32 * j + 1 = 32 := by omega
  simp only [wordOf, bits, BitVec.toNat_ofNat, h, Nat.mod_mod]

end Sys2Proof.Machine
end

