-- ==== Sys2Proof/Laws/Arith.lean ====
section
/-! SUPPORT. What the loops of the engines (R141, R183) and the replacement of a word (R67) do, once each. -/

namespace Sys2Proof.Machine
/-- A wide register with word `j` replaced, split at that word: what lies above, the new word, what lies below (R67). -/
theorem replaceWord_eq (v j : Nat) (w : Word) :
    replaceWord v j w = v / 2 ^ (32 * j + 32) * 2 ^ (32 * j + 32) + w.toNat * 2 ^ (32 * j) + v % 2 ^ (32 * j) := by
  have hb : bits v (32 * j + 31) (32 * j) = v / 2 ^ (32 * j) % 2 ^ 32 := by
    unfold bits; congr 2; omega
  have h1 := Nat.div_add_mod v (2 ^ (32 * j))
  have h2 := Nat.div_add_mod (v / 2 ^ (32 * j)) (2 ^ 32)
  have h3 : v / 2 ^ (32 * j) / 2 ^ 32 = v / 2 ^ (32 * j + 32) := by rw [Nat.div_div_eq_div_mul, pow_add]
  have h4 : v = v / 2 ^ (32 * j + 32) * 2 ^ (32 * j + 32) + v / 2 ^ (32 * j) % 2 ^ 32 * 2 ^ (32 * j) +
      v % 2 ^ (32 * j) := by
    conv_lhs => rw [← h1, ← h2, h3]
    rw [pow_add]; ring
  unfold replaceWord
  rw [hb]
  omega

/-- Word `k` of a wide register after word `j` was replaced (R67). -/
theorem word_replaceWord (v j k : Nat) (w : Word) :
    replaceWord v j w / 2 ^ (32 * k) % 2 ^ 32 = if k = j then w.toNat else v / 2 ^ (32 * k) % 2 ^ 32 := by
  have hw := w.isLt
  have hlo : v % 2 ^ (32 * j) < 2 ^ (32 * j) := Nat.mod_lt _ (by positivity)
  have he : replaceWord v j w =
      2 ^ (32 * j) * (2 ^ 32 * (v / 2 ^ (32 * j + 32)) + w.toNat) + v % 2 ^ (32 * j) := by
    rw [replaceWord_eq, pow_add]; ring
  have hwlt : w.toNat < 2 ^ 32 := hw
  apply Nat.eq_of_testBit_eq
  intro i
  rw [Nat.testBit_mod_two_pow, Nat.testBit_div_two_pow, he, Nat.testBit_two_pow_mul_add _ hlo,
    Nat.testBit_two_pow_mul_add _ hwlt, Nat.testBit_mod_two_pow, Nat.testBit_div_two_pow]
  by_cases hi : i < 32
  · by_cases hk : k = j
    · subst hk
      simp [hi]
    · rw [if_neg hk, Nat.testBit_mod_two_pow, Nat.testBit_div_two_pow]
      simp only [hi, decide_true, Bool.true_and]
      by_cases hlt : k < j
      · rw [if_pos (by omega)]
        simp [show i + 32 * k < 32 * j by omega]
      · rw [if_neg (by omega), if_neg (by omega)]
        congr 1; omega
  · by_cases hk : k = j
    · subst hk
      have : w.toNat.testBit i = false :=
        Nat.testBit_lt_two_pow (lt_of_lt_of_le hwlt (Nat.pow_le_pow_right (by omega) (by omega)))
      simp [hi, this]
    · rw [if_neg hk, Nat.testBit_mod_two_pow]
      simp [hi]

/-- Replacing a word below `n` words keeps the value below `n` words. -/
theorem replaceWord_lt (v j n : Nat) (w : Word) (hj : j < n) (hv : v < 2 ^ (32 * n)) :
    replaceWord v j w < 2 ^ (32 * n) := by
  have hw := w.isLt
  have hlo : v % 2 ^ (32 * j) < 2 ^ (32 * j) := Nat.mod_lt _ (by positivity)
  have hs : 2 ^ (32 * n) = 2 ^ (32 * (n - j - 1)) * 2 ^ (32 * j + 32) := by
    rw [← pow_add]; congr 1; omega
  have hh : v / 2 ^ (32 * j + 32) < 2 ^ (32 * (n - j - 1)) := by
    rw [Nat.div_lt_iff_lt_mul (by positivity), ← hs]; exact hv
  have h1 : w.toNat * 2 ^ (32 * j) + v % 2 ^ (32 * j) < 2 ^ (32 * j + 32) := by
    have : 2 ^ (32 * j + 32) = 2 ^ 32 * 2 ^ (32 * j) := by rw [pow_add]; ring
    have h2 : (w.toNat + 1) * 2 ^ (32 * j) ≤ 2 ^ 32 * 2 ^ (32 * j) := Nat.mul_le_mul_right _ hw
    rw [Nat.add_mul] at h2
    omega
  have h3 : (v / 2 ^ (32 * j + 32) + 1) * 2 ^ (32 * j + 32) ≤ 2 ^ (32 * (n - j - 1)) * 2 ^ (32 * j + 32) :=
    Nat.mul_le_mul_right _ hh
  rw [replaceWord_eq, hs]
  rw [Nat.add_mul] at h3
  omega

/-- The correction loop of R183 with a positive modulus and fuel above `r`: the remainder, and one turn for each multiple. -/
theorem correctionLoop_eq (n : Nat) (hn : 0 < n) (fuel r c : Nat) (h : r < fuel) :
    correctionLoop fuel n r c = (r % n, c + r / n) := by
  induction fuel generalizing r c with
  | zero => omega
  | succ f ih =>
    simp only [correctionLoop]
    split
    · next hle =>
      rw [ih _ _ (by omega), Nat.mod_eq_sub_mod hle, Nat.div_eq_sub_div hn hle]
      congr 1; omega
    · next hgt => simp [Nat.mod_eq_of_lt (show r < n by omega), Nat.div_eq_of_lt (show r < n by omega)]

/-- The loop of R141 with fuel above `r`: it ends with the gcd, and keeps each coefficient's congruence modulo `m`. -/
theorem egcdLoop_spec (a m : Int) (fuel : Nat) (oldR r : Nat) (oldS s : Int) (h : r < fuel)
    (h0 : m ∣ a * oldS - oldR) (h1 : m ∣ a * s - r) :
    (egcdLoop fuel oldR r oldS s).1 = Nat.gcd oldR r ∧
      m ∣ a * (egcdLoop fuel oldR r oldS s).2 - (Nat.gcd oldR r : Nat) := by
  induction fuel generalizing oldR r oldS s with
  | zero => omega
  | succ f ih =>
    simp only [egcdLoop]
    split
    · next hr => subst hr; simpa using h0
    · next hr =>
      have hle : oldR / r * r ≤ oldR := Nat.div_mul_le_self _ _
      have hmod : oldR - oldR / r * r = oldR % r := by
        have := Nat.div_add_mod oldR r
        rw [Nat.mul_comm] at this
        omega
      have hlt : oldR % r < r := Nat.mod_lt _ (by omega)
      have hg : Nat.gcd oldR r = Nat.gcd r (oldR % r) := by rw [Nat.gcd_comm, Nat.gcd_rec, Nat.gcd_comm]
      have hd : m ∣ a * (oldS - (oldR / r : Nat) * s) - ((oldR - oldR / r * r : Nat) : Int) := by
        have : a * (oldS - (oldR / r : Nat) * s) - ((oldR - oldR / r * r : Nat) : Int) =
            (a * oldS - oldR) - (oldR / r : Nat) * (a * s - r) := by
          push_cast [Nat.cast_sub hle]; ring
        rw [this]
        exact dvd_sub h0 (h1.mul_left _)
      have := ih r (oldR - oldR / r * r) s (oldS - (oldR / r : Nat) * s) (by omega) h1 hd
      rw [hmod] at this ⊢
      rw [hg]
      exact this
end Sys2Proof.Machine
end

