-- ==== Sys2Proof/Laws/Decode.lean ====
section
/-! SUPPORT. The masks of R95 as arithmetic on the word, so that no later proof takes a word apart bit by bit. -/

namespace Sys2Proof.Laws

/-- A mask that is ones below bit `a` and from bit `b` up keeps those bits of a word. -/
theorem word_and_mask (w M : BitVec 32) (a b : Nat) (hab : a ≤ b)
    (hM : ∀ i < 32, M.toNat.testBit i = (decide (i < a) || decide (b ≤ i))) :
    (w &&& M).toNat = w.toNat % 2 ^ a + w.toNat / 2 ^ b * 2 ^ b := by
  have hlt : w.toNat % 2 ^ a < 2 ^ b :=
    lt_of_lt_of_le (Nat.mod_lt _ (by positivity)) (Nat.pow_le_pow_right (by omega) hab)
  apply Nat.eq_of_testBit_eq
  intro i
  rw [BitVec.toNat_and, Nat.testBit_and, Nat.add_comm, Nat.mul_comm, Nat.testBit_two_pow_mul_add _ hlt,
    Nat.testBit_mod_two_pow, Nat.testBit_div_two_pow]
  by_cases hi : i < 32
  · rw [hM i hi]
    split
    · next h => simp [show ¬ b ≤ i by omega, Bool.and_comm]
    · next h => simp [show b ≤ i by omega]
  · have hz : w.toNat.testBit i = false :=
      Nat.testBit_lt_two_pow (lt_of_lt_of_le w.isLt (Nat.pow_le_pow_right (by omega) (by omega)))
    split
    · simp [hz]
    · next h => simp [show i - b + b = i by omega, hz]

/-- The mask of `CONS.e`: all but the `RS1` field (R95). -/
theorem and_consMask (w : Word) :
    (w &&& 0xFFFFC7FF#32).toNat = w.toNat % 2 ^ 11 + w.toNat / 2 ^ 14 * 2 ^ 14 :=
  word_and_mask w _ 11 14 (by omega) (by decide)

/-- The mask of `DIN.e`, `DOUT.e` and `RED.e`: all but the `RD` and `RS1` fields (R95). -/
theorem and_unaryMask (w : Word) :
    (w &&& 0xFFFFC0FF#32).toNat = w.toNat % 2 ^ 8 + w.toNat / 2 ^ 14 * 2 ^ 14 :=
  word_and_mask w _ 8 14 (by omega) (by decide)

/-- The mask of `MUL.e` and `INV`: all but the three register fields (R95). -/
theorem and_binaryMask (w : Word) :
    (w &&& 0xFFFE00FF#32).toNat = w.toNat % 2 ^ 8 + w.toNat / 2 ^ 17 * 2 ^ 17 :=
  word_and_mask w _ 8 17 (by omega) (by decide)

end Sys2Proof.Laws
end

