-- ==== Sys2Proof/Laws/Exec.lean ====
section
/-! SUPPORT. What a command, a command cycle, an access and a step can do, once each: later proofs cite these and do not unfold the machine. -/

namespace Sys2Proof.Laws

open Sys2Proof.Machine

/-- The checks of a command's rule, in order (R122). -/
def checksOf (i : Instr) (s : State) : List Check :=
  match i with
  | .consN rs1 => [needsModulus s.cfg (s.readX rs1) false]
  | .consM rs1 => [needsModulus s.cfg (s.readX rs1) true]
  | .consB rs1 => [needsModulus s.cfg (s.readX rs1) false]
  | .mulN _ rs1 rs2 =>
    [needsContext s.naive.nv, needsBelow (s.readX rs1) s.naive.nn .rs1, needsBelow (s.readX rs2) s.naive.nn .rs2]
  | .mulM _ rs1 rs2 =>
    [needsContext s.mont.mv, needsBelow (s.readX rs1) s.mont.mn .rs1, needsBelow (s.readX rs2) s.mont.mn .rs2]
  | .mulB _ rs1 rs2 =>
    [needsContext s.barrett.bv, needsBelow (s.readX rs1) s.barrett.bn .rs1,
      needsBelow (s.readX rs2) s.barrett.bn .rs2]
  | .dinN _ rs1 => [needsContext s.naive.nv, needsBelow (s.readX rs1) s.naive.nn .rs1]
  | .dinM _ rs1 => [needsContext s.mont.mv, needsBelow (s.readX rs1) s.mont.mn .rs1]
  | .dinB _ rs1 => [needsContext s.barrett.bv, needsBelow (s.readX rs1) s.barrett.bn .rs1]
  | .doutN _ rs1 => [needsContext s.naive.nv, needsBelow (s.readX rs1) s.naive.nn .rs1]
  | .doutM _ rs1 => [needsContext s.mont.mv, needsBelow (s.readX rs1) s.mont.mn .rs1]
  | .doutB _ rs1 => [needsContext s.barrett.bv, needsBelow (s.readX rs1) s.barrett.bn .rs1]
  | .redM _ rs1 => [needsContext s.mont.mv, needsBelow (s.readX rs1) (s.mont.mn * s.mont.mr) .rs1]
  | .redB _ rs1 => [needsContext s.barrett.bv, needsBelow (s.readX rs1) (s.barrett.bn * s.barrett.bn) .rs1]
  | .inv _ rs1 rs2 =>
    [needsPositive (s.readX rs1) .rs1, needsPositive (s.readX rs2) .rs2,
      needsCoprime (egcd (s.readX rs1) (s.readX rs2)).1]
  | .clrerr => []

/-- What a command commits when its checks hold (R15). -/
def commitOf (i : Instr) (s : State) : State :=
  match i with
  | .consN rs1 => { s with naive := { nv := true, nn := s.readX rs1 } }
  | .consM rs1 => { s with mont := montContext (s.readX rs1) }
  | .consB rs1 => { s with barrett := barrettContext (s.readX rs1) }
  | .mulN rd rs1 rs2 => s.writeX rd (s.readX rs1 * s.readX rs2 % s.naive.nn)
  | .mulM rd rs1 rs2 =>
    (s.writeX rd (redc s.mont (s.readX rs1 * s.readX rs2)).1).writeFsub (redc s.mont (s.readX rs1 * s.readX rs2)).2
  | .mulB rd rs1 rs2 =>
    (s.writeX rd (breduce s.barrett (s.readX rs1 * s.readX rs2)).1).writeBcnt
      (breduce s.barrett (s.readX rs1 * s.readX rs2)).2
  | .dinN rd rs1 => s.writeX rd (s.readX rs1)
  | .dinM rd rs1 => s.writeX rd (s.readX rs1 * s.mont.mr % s.mont.mn)
  | .dinB rd rs1 => s.writeX rd (s.readX rs1)
  | .doutN rd rs1 => s.writeX rd (s.readX rs1)
  | .doutM rd rs1 => (s.writeX rd (redc s.mont (s.readX rs1)).1).writeFsub (redc s.mont (s.readX rs1)).2
  | .doutB rd rs1 => s.writeX rd (s.readX rs1)
  | .redM rd rs1 => (s.writeX rd (redc s.mont (s.readX rs1)).1).writeFsub (redc s.mont (s.readX rs1)).2
  | .redB rd rs1 => (s.writeX rd (breduce s.barrett (s.readX rs1)).1).writeBcnt (breduce s.barrett (s.readX rs1)).2
  | .inv rd rs1 rs2 => s.writeX rd (inverseMod (s.readX rs1) (s.readX rs2))
  | .clrerr => s.clearError

/-- Every command is its checks and then its commit. -/
theorem exec_eq_conclude (i : Instr) (s : State) : exec i s = conclude i (checksOf i s) (commitOf i s) s := by
  cases i <;> rfl

/-- A command answers a next state: its own error, or its commit. -/
theorem exec_cases (i : Instr) (s : State) :
    (∃ e o, firstFailure (checksOf i s) = some (e, o) ∧ exec i s = .next (s.raise (encode i) e o)) ∨
      (firstFailure (checksOf i s) = none ∧ exec i s = .next (commitOf i s)) := by
  rw [exec_eq_conclude]
  exact conclude_cases i _ _ s

/-- `CLRERR` has no check. -/
theorem exec_clrerr (s : State) : exec .clrerr s = .next s.clearError := rfl

/-- Everything the command cycle of R120 can answer. -/
theorem issue_cases (w : Word) (s : State) :
    (s.err = true ∧ w = 0x1C ∧ issue w s = .next s.clearError) ∨
      (s.err = true ∧ w ≠ 0x1C ∧ issue w s = .next s.drop) ∨
      (s.err = false ∧ decode w = none ∧ issue w s = .next (s.raise w .illegalCommand .none)) ∨
      (s.err = false ∧ ∃ i, decode w = some i ∧ issue w s = exec i s) := by
  cases he : s.err with
  | true =>
    by_cases hw : w = 0x1C
    · exact .inl ⟨rfl, hw, by simp only [issue, he, hw, if_true]; rfl⟩
    · exact .inr (.inl ⟨rfl, hw, by simp only [issue, he, if_true]; rw [if_neg hw]⟩)
  | false =>
    cases hd : decode w with
    | none => exact .inr (.inr (.inl ⟨rfl, rfl, by simp only [issue, he, Bool.false_eq_true, if_false, hd]⟩))
    | some i => exact .inr (.inr (.inr ⟨rfl, i, rfl, by simp only [issue, he, Bool.false_eq_true, if_false, hd]⟩))

/-- The command cycle answers a next state. -/
theorem issue_next (w : Word) (s : State) : ∃ t, issue w s = .next t := by
  rcases issue_cases w s with ⟨-, -, h⟩ | ⟨-, -, h⟩ | ⟨-, -, h⟩ | ⟨-, i, -, h⟩
  · exact ⟨_, h⟩
  · exact ⟨_, h⟩
  · exact ⟨_, h⟩
  · rcases exec_cases i s with ⟨e, o, -, h'⟩ | ⟨-, h'⟩ <;> exact ⟨_, h.trans h'⟩

/-- Everything a 32-bit aligned bus write can do (R64, R65, R68). -/
theorem busWrite_cases (off : Nat) (w : Word) (s : State) :
    (slotAt s.cfg off = some .cmd ∧ ∃ t, issue w s = .next t ∧ busWrite off w s = .next (t.respond .ok)) ∨
      (slotAt s.cfg off = some .ctrl ∧ busWrite off w s = .next ((s.writeCtrl w).respond .ok)) ∨
      (∃ i j, slotAt s.cfg off = some (.x i j) ∧
        busWrite off w s = .next ((s.writeX i (replaceWord (s.readX i) j w)).respond .ok)) ∨
      busWrite off w s = .next (s.respond .busError) := by
  unfold busWrite
  split
  · next h =>
    obtain ⟨t, ht⟩ := issue_next w s
    exact .inl ⟨h, t, ht, by rw [ht]; rfl⟩
  · next h => exact .inr (.inl ⟨h, rfl⟩)
  · next i j h => exact .inr (.inr (.inl ⟨i, j, h, rfl⟩))
  · exact .inr (.inr (.inr rfl))

/-- Everything a bus read can do: it changes nothing but the responses. -/
theorem performRead_cases (width addr : Nat) (s t : State) (h : performRead width addr s = .next t) :
    ∃ r, t = s.respond r ∧
      (r = .notMine ∨ r = .busError ∨ ∃ v, r = .data v ∧ busRead s (addr - s.cfg.base) = some v) := by
  unfold performRead whenRunning at h
  split at h
  · split at h
    · split at h
      · split at h
        · next v hv => cases h; exact ⟨_, rfl, .inr (.inr ⟨v, rfl, hv⟩)⟩
        · cases h; exact ⟨_, rfl, .inr (.inl rfl)⟩
      · cases h; exact ⟨_, rfl, .inr (.inl rfl)⟩
    · cases h
    · cases h
  · cases h; exact ⟨_, rfl, .inl rfl⟩

/-- Everything a bus write can do. -/
theorem performWrite_cases (width addr data : Nat) (s t : State) (h : performWrite width addr data s = .next t) :
    t = s.respond .notMine ∨
      (s.phase = .running ∧
        (t = s.respond .busError ∨
          (width = 32 ∧ busWrite (addr - s.cfg.base) (BitVec.ofNat 32 data) s = .next t))) := by
  unfold performWrite whenRunning at h
  split at h
  · split at h
    · next hp =>
      split at h
      · next hw => exact .inr ⟨hp, .inr ⟨hw, h⟩⟩
      · cases h; exact .inr ⟨hp, .inl rfl⟩
    · cases h
    · cases h
  · cases h; exact .inl rfl

/-- Everything a step can do: the block rests, or it performs the first event of the inbox. -/
theorem step_cases (s t : State) (h : step s = .next t) :
    (s.inbox = [] ∧ t = s) ∨ ∃ e rest, s.inbox = e :: rest ∧ performEvent e { s with inbox := rest } = .next t := by
  unfold step performNext at h
  split at h
  · next hi => cases h; exact .inl ⟨hi, rfl⟩
  · next e rest hi => exact .inr ⟨e, rest, hi, h⟩

end Sys2Proof.Laws
end

