-- ==== Sys2Proof/Laws/PerInstr.lean ====
section
/-! SUPPORT. Facts about every command as syntax, one lemma per constructor: the word of a command holds each field where R91 puts it, and 0 in every other field. -/

namespace Sys2Proof.Laws

/-- The word `enc` builds from fields in their ranges, field by field (R91, R100). -/
theorem enc_toNat (opc rd rs1 rs2 : Nat) (h0 : opc < 2 ^ 8) (h1 : rd < 8) (h2 : rs1 < 8) (h3 : rs2 < 8) :
    (enc opc rd rs1 rs2).toNat = opc + rd * 2 ^ 8 + rs1 * 2 ^ 11 + rs2 * 2 ^ 14 := by
  unfold enc
  rw [BitVec.toNat_ofNat, Nat.mod_eq_of_lt]
  omega

end Sys2Proof.Laws

namespace Sys2Proof.Laws.Fields

/-- The word of `i` holds its opcode, its three register fields (0 where it has none) and a zero `RSV` (R91, R95, R100). -/
def Statement (i : Instr) : Prop :=
  fieldOpc (encode i) = opcodeOf i ∧ (fieldRd (encode i)).val = fieldNumber (rdOf i) ∧
    (fieldRs1 (encode i)).val = fieldNumber (rs1Of i) ∧ (fieldRs2 (encode i)).val = fieldNumber (rs2Of i) ∧
    fieldRsv (encode i) = 0

/-- The fields of a word come back from it. -/
theorem of_enc (opc rd rs1 rs2 : Nat) (h0 : opc < 2 ^ 8) (h1 : rd < 8) (h2 : rs1 < 8) (h3 : rs2 < 8) :
    fieldOpc (enc opc rd rs1 rs2) = opc ∧ (fieldRd (enc opc rd rs1 rs2)).val = rd ∧
      (fieldRs1 (enc opc rd rs1 rs2)).val = rs1 ∧ (fieldRs2 (enc opc rd rs1 rs2)).val = rs2 ∧
      fieldRsv (enc opc rd rs1 rs2) = 0 := by
  have h := enc_toNat opc rd rs1 rs2 h0 h1 h2 h3
  simp only [fieldOpc, fieldRd, fieldRs1, fieldRs2, fieldRsv, Fin.ofNat, h]
  omega

theorem consN (rs1 : Reg) : Statement (.consN rs1) := of_enc 0x05 0 rs1 0 (by omega) (by omega) rs1.isLt (by omega)

theorem consM (rs1 : Reg) : Statement (.consM rs1) := of_enc 0x06 0 rs1 0 (by omega) (by omega) rs1.isLt (by omega)

theorem consB (rs1 : Reg) : Statement (.consB rs1) := of_enc 0x07 0 rs1 0 (by omega) (by omega) rs1.isLt (by omega)

theorem mulN (rd rs1 rs2 : Reg) : Statement (.mulN rd rs1 rs2) :=
  of_enc 0x09 rd rs1 rs2 (by omega) rd.isLt rs1.isLt rs2.isLt

theorem mulM (rd rs1 rs2 : Reg) : Statement (.mulM rd rs1 rs2) :=
  of_enc 0x0A rd rs1 rs2 (by omega) rd.isLt rs1.isLt rs2.isLt

theorem mulB (rd rs1 rs2 : Reg) : Statement (.mulB rd rs1 rs2) :=
  of_enc 0x0B rd rs1 rs2 (by omega) rd.isLt rs1.isLt rs2.isLt

theorem dinN (rd rs1 : Reg) : Statement (.dinN rd rs1) := of_enc 0x0D rd rs1 0 (by omega) rd.isLt rs1.isLt (by omega)

theorem dinM (rd rs1 : Reg) : Statement (.dinM rd rs1) := of_enc 0x0E rd rs1 0 (by omega) rd.isLt rs1.isLt (by omega)

theorem dinB (rd rs1 : Reg) : Statement (.dinB rd rs1) := of_enc 0x0F rd rs1 0 (by omega) rd.isLt rs1.isLt (by omega)

theorem doutN (rd rs1 : Reg) : Statement (.doutN rd rs1) := of_enc 0x11 rd rs1 0 (by omega) rd.isLt rs1.isLt (by omega)

theorem doutM (rd rs1 : Reg) : Statement (.doutM rd rs1) := of_enc 0x12 rd rs1 0 (by omega) rd.isLt rs1.isLt (by omega)

theorem doutB (rd rs1 : Reg) : Statement (.doutB rd rs1) := of_enc 0x13 rd rs1 0 (by omega) rd.isLt rs1.isLt (by omega)

theorem redM (rd rs1 : Reg) : Statement (.redM rd rs1) := of_enc 0x16 rd rs1 0 (by omega) rd.isLt rs1.isLt (by omega)

theorem redB (rd rs1 : Reg) : Statement (.redB rd rs1) := of_enc 0x17 rd rs1 0 (by omega) rd.isLt rs1.isLt (by omega)

theorem inv (rd rs1 rs2 : Reg) : Statement (.inv rd rs1 rs2) :=
  of_enc 0x18 rd rs1 rs2 (by omega) rd.isLt rs1.isLt rs2.isLt

theorem clrerr : Statement .clrerr := of_enc 0x1C 0 0 0 (by omega) (by omega) (by omega) (by omega)

end Sys2Proof.Laws.Fields
end

