-- ==== Sys2Proof/Tests/Slice0.lean ====
section
/-! SUPPORT. The model's own tests, and for every statement with hypotheses a state and operands that meet them. Expected values are the spec's: 95_test_vectors.md unless a comment names another rule. -/

namespace Sys2Proof.Tests

open Sys2Proof.Machine

/-- A field of the next state; `none` where the model stops. -/
def after {α : Type} (o : Result) (f : State → α) : Option α :=
  match o with
  | .next t => some (f t)
  | _ => none

/-- Every engine ready with `N = 11` (vectors M-1 and B-1) and operands at the ends of their ranges. -/
def ready : State :=
  { State.reset with
    x := #v[11, 10, 11, 175, 176, 120, 121, 0]
    naive := { nv := true, nn := 11 }
    mont := { mv := true, mn := 11, mk := 4, mr := 16, mnp := 13 }
    barrett := { bv := true, bn := 11, bk := 4, bmu := 23 } }

/-- Barrett ready with `N = 133` (vector B-1). -/
def ready133 : State :=
  { State.reset with
    x := #v[133, 114, 119, 132, 133, 0, 0, 0]
    naive := { nv := true, nn := 133 }
    barrett := { bv := true, bn := 133, bk := 8, bmu := 492 } }

/-- The reset state with one register set. -/
def withX0 (v : Nat) : State := State.reset.writeX 0 v

/-! ## Well-formedness: a term for each check, which the check refuses -/

theorem test_config_default_legal : Config.default.legal = true := by decide

theorem test_config_mw_too_small : ({ Config.default with mw := 0 } : Config).legal = false := by decide

theorem test_config_mw_too_large : ({ Config.default with mw := 1040 } : Config).legal = false := by decide

theorem test_config_mw_not_multiple : ({ Config.default with mw := 255 } : Config).legal = false := by decide

theorem test_config_base_not_aligned : ({ Config.default with base := 0x1000 } : Config).legal = false := by decide

theorem test_word_unlisted_opcode : legalWord 0x00000000 = false ∧ legalWord 0x00000014 = false := by decide

theorem test_word_reserved_bits : legalWord 0x00020009 = false ∧ legalWord 0x4000001C = false := by decide

theorem test_word_unused_rd : legalWord 0x0000011C = false ∧ legalWord 0x00000106 = false := by decide

theorem test_word_unused_rs1 : legalWord 0x0000081C = false := by decide

theorem test_word_unused_rs2 : legalWord 0x00004006 = false ∧ legalWord 0x00004016 = false := by decide

/-! ## Decoding: words written out from R91 and R94, one for every constructor -/

theorem test_decode_cons : decode 0x00000805 = some (.consN 1) ∧ decode 0x00000806 = some (.consM 1) ∧
    decode 0x00003807 = some (.consB 7) := by decide

theorem test_decode_mul : decode 0x00016409 = some (.mulN 4 4 5) ∧ decode 0x0000D20A = some (.mulM 2 2 3) ∧
    decode 0x0001FF0B = some (.mulB 7 7 7) := by decide

theorem test_decode_din : decode 0x00000A0D = some (.dinN 2 1) ∧ decode 0x00001B0E = some (.dinM 3 3) ∧
    decode 0x00000C0F = some (.dinB 4 1) := by decide

theorem test_decode_dout : decode 0x00001611 = some (.doutN 6 2) ∧ decode 0x00002E12 = some (.doutM 6 5) ∧
    decode 0x00001513 = some (.doutB 5 2) := by decide

theorem test_decode_red : decode 0x00000A16 = some (.redM 2 1) ∧ decode 0x00003717 = some (.redB 7 6) := by decide

theorem test_decode_inv : decode 0x00001C18 = some (.inv 4 3 0) ∧ decode 0x00004218 = some (.inv 2 0 1) := by decide

theorem test_decode_clrerr : decode 0x0000001C = some .clrerr := by decide

theorem test_decode_illegal : decode 0x00000000 = none ∧ decode 0x000000FF = none ∧ decode 0x00020009 = none ∧
    decode 0x0000011C = none ∧ decode 0x00004016 = none := by decide

theorem test_encode : encode (.mulM 4 4 5) = 0x0001640A ∧ encode (.inv 5 0 0) = 0x00000518 ∧
    encode (.redB 5 4) = 0x00002517 := by decide

/-- A number past the one 32-bit format is no command (R90). -/
theorem test_decodeTableWord : decodeTableWord 32 0x0001640A = some (.mulM 4 4 5) ∧
    decodeTableWord 64 0x10000001C = none := by decide

/-! ## The commands -/

/-- N-10: an even modulus is accepted. -/
theorem test_consN : after (exec (.consN 0) (withX0 4)) (fun t => (t.naive, t.err)) =
    some ({ nv := true, nn := 4 }, false) := by decide

theorem test_consN_zero : after (exec (.consN 0) (withX0 0)) (fun t => (t.ecauseWord, t.ecmd, t.naive.nv)) =
    some (0x11, 0x00000005, false) := by decide

theorem test_consM : after (exec (.consM 0) (withX0 133)) (·.mont) =
    some { mv := true, mn := 133, mk := 8, mr := 256, mnp := 179 } := by decide

/-- S3: `N = 4` must fail. -/
theorem test_consM_even : after (exec (.consM 0) (withX0 4)) (fun t => (t.ecauseWord, t.ecmd, t.mont.mv)) =
    some (0x11, 0x00000006, false) := by decide

theorem test_consB : after (exec (.consB 0) (withX0 133)) (·.barrett) =
    some { bv := true, bn := 133, bk := 8, bmu := 492 } := by decide

/-- `N = 2^256` has 257 bits, more than `MW`. -/
theorem test_consB_too_wide : after (exec (.consB 0) (withX0 (2 ^ 256))) (fun t => (t.ecauseWord, t.barrett.bv)) =
    some (0x11, false) := by decide

/-- N-4. -/
theorem test_mulN : after (exec (.mulN 0 3 3) ready133) (·.readX 0) = some 1 := by decide

/-- N-6. -/
theorem test_mulN_range : after (exec (.mulN 0 3 4) ready133) (fun t => (t.readX 0, t.ecauseWord)) =
    some (133, 0x23) := by decide

/-- R162: `9 * 9` takes the final subtraction; the destination is also a source. -/
theorem test_mulM : after (exec (.mulM 1 1 1) (ready.writeX 1 9)) (fun t => (t.readX 1, t.fsub)) =
    some (3, true) := by decide

theorem test_mulM_range : after (exec (.mulM 3 2 2) ready) (fun t => (t.readX 3, t.ecauseWord)) =
    some (175, 0x13) := by decide

/-- B-3: three corrections. -/
theorem test_mulB : after (exec (.mulB 7 1 2) ready133) (fun t => (t.readX 7, t.bcnt)) = some (0, 3) := by decide

/-- E-1: no context. -/
theorem test_mulB_not_configured : after (exec (.mulB 2 0 1) State.reset) (fun t => (t.statusWord, t.ecauseWord)) =
    some (0x00000001, 0x04) := by decide

theorem test_dinN : after (exec (.dinN 5 3) ready133) (·.readX 5) = some 132 := by decide

theorem test_doutN_range : after (exec (.doutN 5 4) ready133) (fun t => (t.readX 5, t.ecauseWord)) =
    some (0, 0x13) := by decide

theorem test_doutN : after (exec (.doutN 5 3) ready133) (·.readX 5) = some 132 := by decide

/-- M-2: it writes no flag. -/
theorem test_dinM : after (exec (.dinM 4 1) { ready with fsub := true }) (fun t => (t.readX 4, t.fsub)) =
    some (6, true) := by decide

/-- M-3. -/
theorem test_doutM : after (exec (.doutM 6 1) { ready with fsub := true }) (fun t => (t.readX 6, t.fsub)) =
    some (2, false) := by decide

/-- E-12: a command that raises writes no flag. -/
theorem test_doutM_range : after (exec (.doutM 3 2) { ready with fsub := true }) (fun t => (t.fsub, t.ecauseWord)) =
    some (true, 0x13) := by decide

theorem test_dinB : after (exec (.dinB 7 3) ready133) (·.readX 7) = some 132 := by decide

theorem test_doutB : after (exec (.doutB 7 3) ready133) (·.readX 7) = some 132 := by decide

theorem test_doutB_range : after (exec (.doutB 7 4) ready133) (·.ecauseWord) = some 0x13 := by decide

/-- M-5: the largest operand, `N*R - 1`. -/
theorem test_redM : after (exec (.redM 7 3) ready) (fun t => (t.readX 7, t.fsub)) = some (2, true) := by decide

theorem test_redM_range : after (exec (.redM 3 4) ready) (fun t => (t.ecauseWord, t.ecmd)) =
    some (0x13, 0x00002316) := by decide

/-- B-2. -/
theorem test_redB : after (exec (.redB 7 0) (ready.writeX 0 44)) (fun t => (t.readX 7, t.bcnt)) = some (0, 2) := by
  decide

theorem test_redB_range : after (exec (.redB 7 6) ready) (·.ecauseWord) = some 0x13 := by decide

/-- I-6. -/
theorem test_inv : after (exec (.inv 0 0 1) ((withX0 17).writeX 1 3120)) (·.readX 0) = some 2753 := by decide

/-- I-10. -/
theorem test_inv_not_found : after (exec (.inv 2 0 1) ((withX0 6).writeX 1 9)) (fun t => (t.ecauseWord, t.ecmd)) =
    some (0x02, 0x00004218) := by decide

/-- E-8. -/
theorem test_clrerr : after (exec .clrerr (ready.raise 0x00008B0A .operandRange .rs2).drop)
    (fun t => (t.statusWord, t.ecauseWord, t.ecmd)) = some (0x0000001C, 0, 0) := by decide

/-! ## The command cycle, the bus and reset -/

/-- E-5: a command in the error state is dropped and the first error kept. -/
theorem test_drop : after (issue 0x00000006 (State.reset.raise 0x0000420A .notConfigured .none))
    (fun t => (t.statusWord, t.ecauseWord, t.ecmd)) = some (0x00000003, 0x04, 0x0000420A) := by decide

/-- E-7: only the exact word leaves the error state. -/
theorem test_drop_near_clrerr : after (issue 0x0000011C (State.reset.raise 0x0000420A .notConfigured .none))
    (·.statusWord) = some 0x00000003 := by decide

theorem test_read_id_param : busRead State.reset 0x0000 = some 0x52454443 ∧
    busRead State.reset 0x0004 = some 0x00180100 := by decide

theorem test_read_refused : busRead State.reset 0x0010 = none ∧ busRead State.reset 0x0002 = none ∧
    busRead State.reset 0x001C = none ∧ busRead State.reset 0x1040 = none ∧ busRead State.reset 0x2024 = none ∧
    busRead State.reset 0x2800 = none := by decide

theorem test_write_refused : after (busWrite 0x0008 0 State.reset) (·.log) = some [.busError] ∧
    after (busWrite 0x2000 1 State.reset) (·.log) = some [.busError] := by decide

theorem test_write_ctrl : after (busWrite 0x000C 0xFFFFFFFF State.reset) (fun t => (busRead t 0x000C, t.log)) =
    some (some 0x00000001, [.ok]) := by decide

/-- Only bits 63:32 change. -/
theorem test_write_word : after (busWrite 0x1304 0x12345678 (State.reset.writeX 3 0xFFFFFFFF00000000)) (·.readX 3) =
    some 0x1234567800000000 := by decide

/-- `BMU = 0x1_00000000_FFFFFFFF` word by word. -/
theorem test_read_wide : ([0x2500, 0x2504, 0x2508, 0x250C].map fun off =>
    busRead { State.reset with barrett := barrettContext 18446744069414584321 } off) =
    [some 0xFFFFFFFF, some 0x00000000, some 0x00000001, some 0x00000000] := by decide

/-- R71. -/
theorem test_byteLane : byteLane 0x12345678 0 = 0x78 ∧ byteLane 0x12345678 3 = 0x12 := by decide

theorem test_narrow_access : after (performRead 16 0x0000 State.reset) (·.log) = some [.busError] ∧
    after (performWrite 8 0x0010 0x1C State.reset) (·.log) = some [.busError] := by decide

/-- E-10, E-11. -/
theorem test_err_irq : ((State.reset.writeCtrl 1).raise 0 .illegalCommand .none).errIrq = true ∧
    (State.reset.raise 0 .illegalCommand .none).errIrq = false := by decide

/-- R263. -/
theorem test_access_during_reset : (match performRead 32 0 (assertReset State.reset) with
    | .refused .accessDuringReset => true
    | _ => false) = true := by decide

/-- R249, spec/93. -/
theorem test_access_after_power_loss : (match performRead 32 0 (losePower State.reset) with
    | .fault .powerLost => true
    | _ => false) = true := by decide

/-- A first command after reset, as the host places it (E-1). -/
theorem test_step_first_command : after (step (State.reset.withFetchWord 32 0x0000420A))
    (fun t => (t.statusWord, t.ecauseWord, t.ecmd, t.inbox, t.log)) =
    some (0x00000001, 0x04, 0x0000420A, [], [.ok]) := by decide

/-- R102: `LDX` with `GL - 1` sends its low word first. -/
theorem test_ldx : (ldx Config.default 3 0xFFFFFFFF00000000).take 2 =
    [.write 32 0x1300 0x00000000, .write 32 0x1304 0xFFFFFFFF] := by decide

/-- R101. -/
theorem test_assembler : asmText (.mulM 4 4 5) =
      ['M', 'U', 'L', '.', 'M', ' ', 'x', '4', ',', ' ', 'x', '4', ',', ' ', 'x', '5'] ∧
    asmParse ['C', 'O', 'N', 'S', '.', 'M', ' ', 'x', '0', ' ', '#', ' ', 'N'] = some (.consM 0) ∧
    asmParse ['I', 'N', 'V', ' ', 'x', '2', ',', 'x', '0'] = none := by decide

/-! ## Witnesses: for every statement with hypotheses, a state and operands that meet them, at the ends of their ranges -/

theorem ready_mont_valid : ready.mont.Valid 256 :=
  ⟨by decide, by decide, by decide, by decide, by decide, by decide, by decide⟩

theorem ready_barrett_valid : ready.barrett.Valid 256 := ⟨by decide, by decide, by decide, by decide⟩

theorem ready133_barrett_valid : ready133.barrett.Valid 256 := ⟨by decide, by decide, by decide, by decide⟩

/-- `ready` meets the invariant. -/
theorem ready_inv_idle : ready.Inv where
  legal := by decide
  regs r := lt_of_lt_of_le ((by decide : ∀ r : Reg, ready.readX r < 2 ^ 8) r)
    (Nat.pow_le_pow_right (by decide) (by decide))
  naive := ⟨fun _ => by decide, fun h => by cases h⟩
  mont := ⟨fun _ => ready_mont_valid, fun h => by cases h⟩
  barrett := ⟨fun _ => ready_barrett_valid, fun h => by cases h⟩
  noError _ := by decide
  anError h := by cases h
  operand := by decide
  corrections := by decide
  inReset h := by cases h

/-- A state with every engine ready meets the invariant, whatever the host sends it. -/
theorem ready_inv (l : List HostEvent) : ({ ready with inbox := l } : State).Inv where
  legal := ready_inv_idle.legal
  regs := ready_inv_idle.regs
  naive := ready_inv_idle.naive
  mont := ready_inv_idle.mont
  barrett := ready_inv_idle.barrett
  noError := ready_inv_idle.noError
  anError := ready_inv_idle.anError
  operand := ready_inv_idle.operand
  corrections := ready_inv_idle.corrections
  inReset h := by cases h

theorem witness_EncodeInvertsDecode : decode 0x0001FF0B = some (.mulB 7 7 7) := by decide

theorem witness_IllegalWordsRaise : legalWord 0x00000000 = false ∧ legalWord 0xFFFFFFFF = false ∧
    State.reset.err = false := by decide

theorem witness_ConsNLoadsModulus : (withX0 0).readX 0 = 0 ∧
    (withX0 (2 ^ 256)).cfg.mw < bitlength ((withX0 (2 ^ 256)).readX 0) ∧
    ((withX0 1).readX 0 ≠ 0 ∧ bitlength ((withX0 1).readX 0) ≤ (withX0 1).cfg.mw) ∧
    bitlength ((withX0 (2 ^ 256 - 1)).readX 0) ≤ (withX0 (2 ^ 256 - 1)).cfg.mw := by decide

theorem witness_ConsMConstructsContext : (withX0 0).readX 0 = 0 ∧ (withX0 4).readX 0 % 2 = 0 ∧
    (withX0 (2 ^ 256)).cfg.mw < bitlength ((withX0 (2 ^ 256)).readX 0) ∧
    ((withX0 1).readX 0 ≠ 0 ∧ (withX0 1).readX 0 % 2 = 1 ∧ bitlength ((withX0 1).readX 0) ≤ (withX0 1).cfg.mw) ∧
    ((withX0 (2 ^ 256 - 1)).readX 0 % 2 = 1 ∧
      bitlength ((withX0 (2 ^ 256 - 1)).readX 0) ≤ (withX0 (2 ^ 256 - 1)).cfg.mw) := by decide

theorem witness_ConsBConstructsContext : (withX0 0).readX 0 = 0 ∧
    (withX0 (2 ^ 256)).cfg.mw < bitlength ((withX0 (2 ^ 256)).readX 0) ∧
    ((withX0 2).readX 0 ≠ 0 ∧ bitlength ((withX0 2).readX 0) ≤ (withX0 2).cfg.mw) := by decide

theorem witness_MulNIsRemainderOfProduct : State.reset.naive.nv = false ∧ ready.naive.nv = true ∧
    ready.naive.nn ≤ ready.readX 2 ∧ (ready.readX 1 < ready.naive.nn ∧ ready.naive.nn ≤ ready.readX 2) ∧
    ready.readX 7 < ready.naive.nn := by decide

theorem witness_MulMIsMontgomeryProduct : (State.reset.mont.mv = false ∧ ready.mont.mv = true ∧
    ready.mont.mn ≤ ready.readX 2 ∧ ready.readX 1 < ready.mont.mn ∧ ready.readX 7 < ready.mont.mn ∧
    ready.readX 1 = 2 * ready.mont.mr % ready.mont.mn ∧ ready.readX 7 = 0 * ready.mont.mr % ready.mont.mn) ∧
    ready.mont.Valid ready.cfg.mw := ⟨by decide, ready_mont_valid⟩

theorem witness_MulBIsRemainderOfProduct : (State.reset.barrett.bv = false ∧ ready.barrett.bv = true ∧
    ready.barrett.bn ≤ ready.readX 2 ∧ ready.readX 1 < ready.barrett.bn ∧ ready.readX 7 < ready.barrett.bn) ∧
    ready.barrett.Valid ready.cfg.mw := ⟨by decide, ready_barrett_valid⟩

theorem witness_NaiveConversionsAreIdentity : State.reset.naive.nv = false ∧ ready.naive.nv = true ∧
    ready.naive.nn ≤ ready.readX 2 ∧ ready.readX 1 < ready.naive.nn := by decide

theorem witness_DinMIsMontgomeryForm : State.reset.mont.mv = false ∧ ready.mont.mv = true ∧
    ready.mont.mn ≤ ready.readX 2 ∧ ready.readX 1 < ready.mont.mn := by decide

theorem witness_DoutMLeavesMontgomeryForm : (State.reset.mont.mv = false ∧ ready.mont.mv = true ∧
    ready.mont.mn ≤ ready.readX 2 ∧ ready.readX 1 < ready.mont.mn) ∧ ready.mont.Valid ready.cfg.mw :=
  ⟨by decide, ready_mont_valid⟩

theorem witness_BarrettConversionsAreIdentity : State.reset.barrett.bv = false ∧ ready.barrett.bv = true ∧
    ready.barrett.bn ≤ ready.readX 2 ∧ ready.readX 1 < ready.barrett.bn := by decide

theorem witness_RedMIsMontgomeryReduction : (State.reset.mont.mv = false ∧ ready.mont.mv = true ∧
    ready.mont.mn * ready.mont.mr ≤ ready.readX 4 ∧ ready.readX 3 < ready.mont.mn * ready.mont.mr) ∧
    ready.mont.Valid ready.cfg.mw := ⟨by decide, ready_mont_valid⟩

theorem witness_RedBIsRemainder : (State.reset.barrett.bv = false ∧ ready.barrett.bv = true ∧
    ready.barrett.bn * ready.barrett.bn ≤ ready.readX 6 ∧ ready.readX 5 < ready.barrett.bn * ready.barrett.bn) ∧
    ready.barrett.Valid ready.cfg.mw := ⟨by decide, ready_barrett_valid⟩

theorem witness_InvIsModularInverse : ready.readX 7 = 0 ∧ (ready.readX 0 ≠ 0 ∧ ready.readX 7 = 0) ∧
    Nat.gcd (ready.readX 0) (ready.readX 2) ≠ 1 ∧
    (ready.readX 1 ≠ 0 ∧ ready.readX 0 ≠ 0 ∧ Nat.gcd (ready.readX 1) (ready.readX 0) = 1) ∧
    ((withX0 1).readX 0 ≠ 0 ∧ Nat.gcd ((withX0 1).readX 0) ((withX0 1).readX 0) = 1) := by decide

theorem witness_ClrerrLeavesErrorState : (0x0000011C#32).toNat % 256 = 0x1C ∧ (0x0000011C : Word) ≠ 0x0000001C ∧
    (State.reset.raise 0 .illegalCommand .none).err = true ∧ State.reset.err = false := by decide

theorem witness_RedcIsExactReduction : ready.mont.Valid 256 ∧ 175 < ready.mont.mn * ready.mont.mr ∧
    ready.mont.mr * 9 % ready.mont.mn = 1 % ready.mont.mn := ⟨ready_mont_valid, by decide, by decide⟩

theorem witness_BreduceIsRemainder : ready133.barrett.Valid 256 := ready133_barrett_valid

theorem witness_CorrectionLoopRunsAtMostThrice : ready133.barrett.Valid 256 ∧
    17688 < ready133.barrett.bn * ready133.barrett.bn := ⟨ready133_barrett_valid, by decide⟩

/-- `N = 2` is a power of two, where `mu` is widest (R180). -/
theorem witness_ReciprocalFitsItsRegister : BarrettCtx.Valid 256 { bv := true, bn := 2, bk := 2, bmu := 8 } :=
  ⟨by decide, by decide, by decide, by decide⟩

theorem witness_BarrettIntermediatesFit : BarrettCtx.Valid 256 { bv := true, bn := 1, bk := 1, bmu := 4 } ∧
    0 < (1 : Nat) * 1 := ⟨⟨by decide, by decide, by decide, by decide⟩, by decide⟩

theorem witness_MontgomeryFormIsBijective :
    MontCtx.Valid 256 { mv := true, mn := 1, mk := 1, mr := 2, mnp := 1 } ∧ (0 : Nat) < 1 :=
  ⟨⟨by decide, by decide, by decide, by decide, by decide, by decide, by decide⟩, by decide⟩

theorem witness_EgcdFindsGcdAndCoefficient : (1 : Nat) ≤ 1 ∧ (1 : Nat) ≤ 3120 := by decide

theorem witness_ContextsDependOnModulusAlone : (withX0 11).readX 0 = ready.readX 2 ∧
    after (exec (.consM 0) (withX0 11)) (·.err) = some false ∧ after (exec (.consM 2) ready) (·.err) = some false ∧
    after (exec (.consB 0) (withX0 11)) (·.err) = some false ∧ after (exec (.consB 2) ready) (·.err) = some false ∧
    (withX0 11).err = false ∧ ready.err = false := by decide

theorem witness_EnginesShareOneContract : contextReady ready .naive ∧ contextReady ready .montgomery ∧
    contextReady ready .barrett ∧ (ready.err = false ∧ ready.readX 1 < modulusOf ready .montgomery ∧
      ready.readX 7 < modulusOf ready .montgomery ∧ (2 : Reg) ≠ 7 ∧ (2 : Reg) ≠ 3) :=
  ⟨⟨rfl, (ready_inv []).naive⟩, ⟨rfl, (ready_inv []).mont⟩, ⟨rfl, (ready_inv []).barrett⟩, by decide⟩

theorem witness_FoldComputesProductOnEveryEngine :
    ({ ready with inbox := foldProgram ready.cfg .montgomery 11 5 [3, 7] ++ [] } : State).Inv ∧
    ready.phase = .running ∧ ready.err = false ∧ bitlength 11 ≤ ready.cfg.mw ∧ 11 % 2 = 1 ∧ 5 < 11 ∧
    (∀ v ∈ [3, 7], v < 11) := ⟨ready_inv _, by decide⟩

theorem witness_ResetMeetsInvariant : Config.legal { Config.default with mw := 1024 } = true := by decide

theorem witness_StepKeepsInvariant : ({ ready with inbox := [cmdWrite ready.cfg 0x00008B0A] } : State).Inv ∧
    after (step { ready with inbox := [cmdWrite ready.cfg 0x00008B0A] }) (·.log) = some [.ok] :=
  ⟨ready_inv _, by decide⟩

theorem witness_ParametersNeverChange : after (step { ready with inbox := [.assertReset] }) (·.phase) =
    some .inReset := by decide

theorem witness_OnlyResetClearsValidBits :
    after (step { ready with inbox := [.assertReset] }) (fun t => validOf t .barrett) = some false ∧
    validOf ready .barrett = true ∧
    after (issue 0x00000000 ready) (·.err) = some true ∧ (issue 0x0000001C ready matches .next _) = true := by decide

theorem witness_OnlyClrerrOrResetLeavesErrorState :
    after (step { ready.raise 0 .illegalCommand .none with inbox := [cmdWrite ready.cfg 0x0000001C] }) (·.err) =
      some false ∧ (ready.raise 0 .illegalCommand .none).err = true := by decide

theorem witness_ContextsWrittenByOwnConsOnly :
    after (exec (.consN 1) ready) (fun t => decide (t.naive ≠ ready.naive)) = some true ∧
    after (exec (.consM 3) ready) (fun t => decide (t.mont ≠ ready.mont)) = some true ∧
    after (exec (.consB 1) ready) (fun t => decide (t.barrett ≠ ready.barrett)) = some true ∧
    ready.cfg.legal = true ∧ 0x2000 ≤ 0x27FC ∧ 0x27FC < 0x2800 := by decide

theorem witness_FlagsWrittenByTheirCommandsOnly :
    after (exec (.redM 7 3) ready) (fun t => decide (t.fsub ≠ ready.fsub)) = some true ∧
    after (exec (.mulB 7 1 2) ready133) (fun t => decide (t.bcnt ≠ ready133.bcnt)) = some true ∧
    ready.err = false ∧ after (exec (.redM 7 4) ready) (·.err) = some true := by decide

theorem witness_CommandFrame : after (exec (.mulM 3 1 1) ready) (·.err) = some false ∧
    rdOf (.mulM 3 1 1) ≠ some 4 ∧ Instr.mulM 3 1 1 ≠ .clrerr := by decide

theorem witness_CommandsIgnoreOtherContexts : engineOf (.mulM 3 1 1) ≠ some .naive ∧
    engineOf (.inv 3 1 1) ≠ some .montgomery ∧ engineOf .clrerr ≠ some .barrett := by decide

theorem witness_ErrorsArePrecise : ready.err = false ∧ after (exec (.mulM 3 1 2) ready) (·.err) = some true := by
  decide

theorem witness_ErrorStateDropsCommands : (ready.raise 0 .illegalCommand .none).err = true ∧
    (0x0000011C : Word) ≠ 0x0000001C := by decide

/-- A flag's own command that completes, one that raises, and a command that writes no flag. -/
theorem witness_CommandsIgnoreFlags : ready.err = false ∧
    (writesFsub (.mulM 3 1 1) = true ∧ after (exec (.mulM 3 1 1) ready) (·.err) = some false) ∧
    (writesFsub (.mulM 3 2 2) = true ∧ after (exec (.mulM 3 2 2) ready) (·.err) = some true) ∧
    (writesBcnt (.redB 3 5) = true ∧ after (exec (.redB 3 5) ready) (·.err) = some false) ∧
    (writesFsub (.dinM 3 1) = false ∧ writesBcnt (.dinM 3 1) = false) := by decide

/-- `ready` with the host's next event the write of `w` to `CMD`. -/
def readyFor (w : Word) : State := { ready with inbox := [.write 32 (ready.cfg.base + 0x0010) w.toNat] }

/-- A legal word and an illegal one (`RSV` is not 0); in the error state `CLRERR`'s word and its neighbour. -/
theorem witness_StepRunsDecodedCommand : ready.phase = .running ∧ ready.err = false ∧
    decode 0x00008B0A = some (.mulM 3 1 2) ∧ decode 0x00028B0A = none ∧
    (readyFor 0x00008B0A).inbox = .write 32 (ready.cfg.base + 0x0010) (0x00008B0A#32).toNat :: [] ∧
    ({ readyFor 0x1C with err := true } : State).err = true ∧ (0x0000011C : Word) ≠ 0x0000001C := by decide

/-- A dropped word, `CLRERR` in the error state, and an illegal word, each through a whole step (R120, R235, R215, R121). -/
theorem test_step_writes_cmd :
    after (step { readyFor 0x0000011C with err := true, cause := .notConfigured, ecmd := 5 })
      (fun t => (t.statusWord, t.ecauseWord, t.ecmd, t.log)) = some (0x0000001F, 4, 5, [.ok]) ∧
    after (step { readyFor 0x0000001C with err := true, cause := .notConfigured, ecmd := 5 })
      (fun t => (t.statusWord, t.ecauseWord, t.ecmd, t.log)) = some (0x0000001C, 0, 0, [.ok]) ∧
    after (step (readyFor 0x00028B0A)) (fun t => (t.statusWord, t.ecauseWord, t.ecmd, t.log)) =
      some (0x0000001D, 5, 0x00028B0A, [.ok]) := by decide

theorem witness_IdleStepChangesNothing : ready.inbox = [] := by decide

theorem witness_WindowMapIsExact : Config.default.legal = true ∧ slotAt Config.default 0x2720 = some (.nn 8) ∧
    slotAt Config.default 0x173C = some (.x 7 15) := by decide

/-- The last word of the window, a misaligned offset, `CMD`, a read-only word and a writable one. -/
theorem witness_BusErrorsChangeNothing : ready.phase = .running ∧ 0x3FFC < 0x4000 ∧
    slotAt ready.cfg 0x3FFC = none ∧ 0x3FFF % 4 ≠ 0 ∧ slotAt ready.cfg 0x0010 = some .cmd ∧
    (slotAt ready.cfg 0x2720 = some (.nn 8) ∧ Slot.nn 8 ≠ .cmd ∧ slotWritable (.nn 8) = false) ∧
    slotWritable .cmd = true ∧ slotWritable (.x 7 15) = true := by decide

theorem witness_ReadsAndPlainWritesAreIdempotent :
    after (performRead 32 0x171C ready) (·.log) = some [.data 0] ∧ slotAt ready.cfg 0x173C ≠ some .cmd ∧
    after (busWrite 0x171C 5 ready) (·.log) = some [.ok] := by decide

theorem witness_DataWordWriteReplacesThatWord : ready.cfg.legal = true ∧ 16 * 15 < ready.cfg.mw ∧
    0x1000 ≠ 0x1000 + 0x100 * (7 : Reg).val + 4 * 15 := by decide

/-- Legal parameters, and `ECAUSE` read for each cause of R221 and each operand of R35. -/
theorem witness_StatusWordsAsLaidOut : ready.cfg.legal = true ∧
    [Cause.none, .invalidModulus, .inverseNotFound, .operandRange, .notConfigured, .illegalCommand].map
      (fun e => busRead { ready with cause := e } 0x0014) = [some 0, some 1, some 2, some 3, some 4, some 5] ∧
    [Opnd.none, .rs1, .rs2].map (fun o => busRead { ready with opnd := o } 0x0014) =
      [some 0, some 16, some 32] := by decide

theorem witness_ErrIrqFollowsErrorAndEnable : ready.phase ≠ .powerLost ∧
    after (exec .clrerr ready) (·.err) = some false ∧
    BitVec.getLsbD (0xFFFFFFFE : Word) 0 = false ∧ after (busWrite 0x000C 0xFFFFFFFE ready) (·.log) = some [.ok] := by
  decide

theorem witness_CtrlStoresBitZero : busRead ready 0x000C = some 0 := by decide

theorem witness_ResetInputClearsEverything :
    ({ ready with inbox := [.assertReset, .releaseReset] } : State).inbox = .assertReset :: [.releaseReset] := by
  decide

theorem witness_AccessDuringResetHasNoStep :
    ({ assertReset ready with inbox := [.read 32 (ready.cfg.base + 0x3FFF)] } : State).phase = .inReset ∧
    0x3FFF < 0x4000 := by decide

theorem witness_PowerLossIsStuckUntilReset : (losePower ready).phase = .powerLost ∧ 0x3FFF < 0x4000 ∧
    ({ losePower ready with inbox := [.assertReset, .releaseReset] } : State).inbox =
      .assertReset :: .releaseReset :: [] := by decide

theorem witness_ResetErasesTheCommandBefore : after (issue 0x00008B0A ready) (·.ecmd) = some 0x00008B0A := by decide

theorem witness_AccessOutsideWindowIsNotTheBlocks :
    (0 < ({ ready with cfg := { ready.cfg with base := 0x4000 } } : State).cfg.base) ∧
    ready.cfg.base + 0x4000 ≤ 0x4000 := by decide

theorem witness_LdxLoadsRegister :
    ({ ready with inbox := ldx ready.cfg 7 (2 ^ 256 - 189) ++ [] } : State).Inv ∧ ready.phase = .running ∧
    2 ^ 256 - 189 < 2 ^ (2 * ready.cfg.mw) :=
  ⟨ready_inv _, by decide, lt_of_lt_of_le (by decide : 2 ^ 256 - 189 < 2 ^ 256) (Nat.pow_le_pow_right (by decide) (by decide))⟩

theorem witness_RdxReadsRegister : ({ ready with inbox := rdx ready.cfg 3 ++ [] } : State).Inv ∧
    ready.phase = .running := ⟨ready_inv _, by decide⟩

theorem witness_RdctxReadsContextRegister : ({ ready with inbox := rdctx ready.cfg .mnp ++ [] } : State).Inv ∧
    ready.phase = .running := ⟨ready_inv _, by decide⟩

end Sys2Proof.Tests
end

section
/-! SUPPORT. When every check of a command holds, what a failing one raises, and what each check says of its operand (R122, R221). -/

namespace Sys2Proof.Machine

/-- R122: a command commits exactly when no check of its rule fails. -/
theorem firstFailure_eq_none_iff (cs : List Check) : firstFailure cs = none ↔ ∀ c ∈ cs, c.fails = false := by
  induction cs with
  | nil => simp [firstFailure]
  | cons c cs ih => cases hc : c.fails <;> simp [firstFailure, hc, ih]

/-- R122: what a command raises is the cause and the operand of one of its checks. -/
theorem exists_check_of_firstFailure {cs : List Check} {e : Cause} {o : Opnd} (h : firstFailure cs = some (e, o)) :
    ∃ c ∈ cs, c.cause = e ∧ c.opnd = o := by
  induction cs with
  | nil => cases h
  | cons c cs ih =>
    cases hc : c.fails with
    | true =>
      have hp : c.cause = e ∧ c.opnd = o := by simpa [firstFailure, hc] using h
      exact ⟨c, by simp, hp⟩
    | false =>
      obtain ⟨d, hd, hp⟩ := ih (by simpa [firstFailure, hc] using h)
      exact ⟨d, by simp [hd], hp⟩

/-- R222: the modulus check holds exactly for a positive modulus of at most `MW` bits, odd where that is asked for. -/
@[simp] theorem needsModulus_fails_eq_false (c : Config) (n : Nat) (odd : Bool) :
    (needsModulus c n odd).fails = false ↔ 0 < n ∧ (odd = true → n % 2 = 1) ∧ n < 2 ^ c.mw := by
  rw [← bitlength_le_iff n c.mw]
  cases odd <;> simp [needsModulus, Nat.pos_iff_ne_zero, and_assoc]

end Sys2Proof.Machine

namespace Sys2Proof.Laws

open Sys2Proof.Machine

/-- R221: every check of a command raises a listed cause, other than 0, with an operand the table allows. -/
theorem checksOf_raises_listed (i : Instr) (s : State) :
    ∀ c ∈ checksOf i s, c.cause ≠ .none ∧ causeAllows c.cause c.opnd = true := by
  cases i <;> simp [checksOf, needsContext, needsBelow, needsPositive, needsModulus, needsCoprime, causeAllows]

end Sys2Proof.Laws
end

section
/-! SUPPORT. The bounds of the engines' results (R140, R157, R184, R185), and the contexts CONS.M and CONS.B derive (R28). -/

namespace Sys2Proof.Machine

/-- R140: the inverse engine's result is below a positive modulus. -/
theorem inverseMod_lt (a : Nat) {m : Nat} (hm : 0 < m) : inverseMod a m < m := by
  have h := Int.emod_lt_of_pos (egcd a m).2 (show (0 : Int) < m by omega)
  unfold inverseMod
  omega

/-- R140, R141: for coprime operands the inverse engine's result is an inverse. -/
theorem mul_inverseMod_modEq {a m : Nat} (hm : 0 < m) (hg : Nat.gcd a m = 1) : a * inverseMod a m ≡ 1 [MOD m] := by
  have hspec := (egcdLoop_spec a m (m + 1) a m 1 0 (by omega) (by simp) (by simp)).2
  have hcoef : (a : Int) * (egcd a m).2 ≡ 1 [ZMOD m] := by
    rw [hg] at hspec
    exact (Int.modEq_iff_dvd.mpr (by simpa [egcd] using hspec)).symm
  have hcast : (inverseMod a m : Int) = (egcd a m).2 % m :=
    Int.toNat_of_nonneg (Int.emod_nonneg _ (by omega))
  rw [← Int.natCast_modEq_iff]
  push_cast
  rw [hcast]
  exact ((Int.mod_modEq _ _).mul_left _).trans hcoef

/-- R28, R150, R151: CONS.M of an odd modulus of at most `mw` bits derives a valid context. -/
theorem montContext_valid {mw n : Nat} (hodd : n % 2 = 1) (hfit : n < 2 ^ mw) : (montContext n).Valid mw := by
  have hR : 0 < 2 ^ bitlength n := by positivity
  have hcop : Nat.gcd n (2 ^ bitlength n) = 1 :=
    Nat.Coprime.pow_right _ (Nat.coprime_two_right.mpr (Nat.odd_iff.mpr hodd))
  have hinv := mul_inverseMod_modEq hR hcop
  have hlt := inverseMod_lt n hR
  refine ⟨hodd, hfit, rfl, rfl, Nat.mod_lt _ hR, ?_, hcop⟩
  show n * ((2 ^ bitlength n - inverseMod n (2 ^ bitlength n)) % 2 ^ bitlength n) + 1 ≡ 0 [MOD 2 ^ bitlength n]
  calc n * ((2 ^ bitlength n - inverseMod n (2 ^ bitlength n)) % 2 ^ bitlength n) + 1
      ≡ n * (2 ^ bitlength n - inverseMod n (2 ^ bitlength n)) + n * inverseMod n (2 ^ bitlength n)
          [MOD 2 ^ bitlength n] := ((Nat.mod_modEq _ _).mul_left n).add hinv.symm
    _ = n * 2 ^ bitlength n := by rw [← Nat.mul_add, Nat.sub_add_cancel hlt.le]
    _ ≡ 0 [MOD 2 ^ bitlength n] := (Nat.modEq_zero_iff_dvd).mpr (Nat.dvd_mul_left _ _)

/-- R28, R180: CONS.B of a positive modulus of at most `mw` bits derives a valid context. -/
theorem barrettContext_valid {mw n : Nat} (hpos : 0 < n) (hfit : n < 2 ^ mw) : (barrettContext n).Valid mw :=
  ⟨hpos, hfit, rfl, rfl⟩

/-- R157: `redc` reduces every `T` below `N * R` below `N`. -/
theorem redc_lt {mw T : Nat} {c : MontCtx} (hc : c.Valid mw) (hT : T < c.mn * c.mr) : (redc c T).1 < c.mn := by
  have hR : 0 < c.mr := hc.radix ▸ Nat.two_pow_pos c.mk
  have hm : T % 2 ^ c.mk * c.mnp % c.mr < c.mr := Nat.mod_lt _ hR
  have ht : (T + T % 2 ^ c.mk * c.mnp % c.mr * c.mn) / 2 ^ c.mk < 2 * c.mn := by
    rw [← hc.radix, Nat.div_lt_iff_lt_mul hR]
    have := Nat.mul_le_mul_right c.mn hm.le
    rw [hc.radix] at this hT ⊢
    linarith
  simp only [redc]
  split <;> simp only <;> omega

/-- R183, R184: with a valid context, `breduce` returns the remainder of what the estimate leaves and counts one correction
for each multiple of `N` in it. -/
theorem breduce_eq {mw : Nat} {c : BarrettCtx} (hc : c.Valid mw) (v : Nat) :
    breduce c v = ((v - barrettEstimate c v * c.bn) % c.bn, (v - barrettEstimate c v * c.bn) / c.bn) := by
  simp [breduce, correctionLoop_eq c.bn hc.positive _ _ 0 (Nat.lt_succ_self _)]

/-- R184: `breduce` reduces below `N`. -/
theorem breduce_lt {mw : Nat} {c : BarrettCtx} (hc : c.Valid mw) (v : Nat) : (breduce c v).1 < c.bn := by
  rw [breduce_eq hc]
  exact Nat.mod_lt _ hc.positive

/-- R185: below `N * N` the estimate misses the quotient by less than 4. Each of the three floors loses less than one unit,
and `2^k ≤ 2 * N` bounds what the losses in `x >> k` and in `mu` grow to. -/
theorem lt_barrettEstimate_add_four_mul {mw v : Nat} {c : BarrettCtx} (hc : c.Valid mw) (hv : v < c.bn * c.bn) :
    v < (barrettEstimate c v + 4) * c.bn := by
  have hK : 0 < 2 ^ c.bk := by positivity
  have hNK : c.bn < 2 ^ c.bk := hc.k ▸ lt_two_pow_bitlength c.bn
  have hKN : 2 ^ c.bk ≤ 2 * c.bn := by
    have h1 := two_pow_le_of_pos hc.positive
    have h2 : 2 ^ c.bk = 2 ^ (bitlength c.bn - 1) * 2 := by
      rw [hc.k, ← pow_succ, Nat.sub_add_cancel (bitlength_pos hc.positive)]
    omega
  have hmu : 2 ^ c.bk * 2 ^ c.bk < c.bn * (c.bmu + 1) := by
    rw [hc.reciprocal, ← pow_add, ← two_mul]
    exact Nat.lt_mul_div_succ _ hc.positive
  have hx : v < 2 ^ c.bk * (v / 2 ^ c.bk + 1) := Nat.lt_mul_div_succ _ hK
  have hq : v / 2 ^ c.bk * c.bmu < 2 ^ c.bk * (barrettEstimate c v + 1) := Nat.lt_mul_div_succ _ hK
  have ha : v / 2 ^ c.bk < 2 ^ c.bk := by
    rw [Nat.div_lt_iff_lt_mul hK]
    nlinarith
  generalize barrettEstimate c v = q at *
  generalize v / 2 ^ c.bk = a at *
  generalize 2 ^ c.bk = K at *
  have h1 : a * (K * K) ≤ a * (c.bn * (c.bmu + 1)) := Nat.mul_le_mul_left _ hmu.le
  have h2 : c.bn * (a * c.bmu) ≤ c.bn * (K * (q + 1)) := Nat.mul_le_mul_left _ hq.le
  have h3 : a * c.bn ≤ K * c.bn := Nat.mul_le_mul_right _ ha.le
  have h4 : K * K ≤ K * (2 * c.bn) := Nat.mul_le_mul_left _ hKN
  refine lt_of_mul_lt_mul_left (a := K) ?_ (Nat.zero_le _)
  calc K * v < K * (K * (a + 1)) := Nat.mul_lt_mul_of_pos_left hx hK
    _ ≤ K * ((q + 4) * c.bn) := by nlinarith

/-- R185: below `N * N` the correction loop runs at most three times. -/
theorem breduce_corrections_le {mw v : Nat} {c : BarrettCtx} (hc : c.Valid mw) (hv : v < c.bn * c.bn) :
    (breduce c v).2 ≤ 3 := by
  have hpos := hc.positive
  have h := lt_barrettEstimate_add_four_mul hc hv
  rw [Nat.add_mul] at h
  rw [breduce_eq hc]
  refine Nat.lt_succ_iff.mp ((Nat.div_lt_iff_lt_mul hpos).mpr ?_)
  omega

end Sys2Proof.Machine
end

section
/-! SUPPORT. Which offsets the register window gives to the words of a data register (R66), and which bus addresses are the window's (R60). -/

namespace Sys2Proof.Laws

open Sys2Proof.Machine

/-- R66: a mapped word is a word of one of the map's regions. -/
theorem exists_region_of_slotAt {c : Config} {off : Nat} {sl : Slot} (h : slotAt c off = some sl) :
    ∃ r ∈ regions c, ∃ j < r.words, r.slot j = sl := by
  unfold slotAt at h
  split at h
  · obtain ⟨r, hr, rfl⟩ := Option.map_eq_some_iff.mp h
    have hin : r.start ≤ off ∧ off < r.start + 4 * r.words := by simpa [inRegion] using List.find?_some hr
    exact ⟨r, List.mem_of_find?_eq_some hr, (off - r.start) / 4, by omega, rfl⟩
  · cases h

/-- R66: a data register has `WX` words in the window. -/
theorem word_lt_of_slotAt_x {c : Config} {off : Nat} {i : Reg} {j : Nat} (h : slotAt c off = some (.x i j)) :
    j < wx c := by
  obtain ⟨r, hr, k, hk, hslot⟩ := exists_region_of_slotAt h
  have hx : ∀ r ∈ regions c, ∀ k, r.slot k = .x i j → k = j ∧ r.words = wx c := by
    simp [regions, or_imp, forall_and]
  obtain ⟨rfl, hw⟩ := hx r hr k hslot
  exact hw ▸ hk

/-- R60: the window is `0x4000` bytes from `BASE`. -/
theorem inWindow_eq_false {c : Config} {addr : Nat} (h : addr < c.base ∨ c.base + 0x4000 ≤ addr) :
    inWindow c addr = false := by
  rw [inWindow, windowSize, ← Bool.decide_and, decide_eq_false_iff_not]
  omega

end Sys2Proof.Laws
end

section
/-! SUPPORT. What each state operation keeps of the invariant, once each. While reset is asserted the block holds its reset values (R260), so an operation that writes the block's state needs reset released. -/

namespace Sys2Proof.Machine

namespace State.Inv

variable {s : State}

/-- A value with at most `MW` bits fits a data register (R7, R20). -/
theorem fits_xlen (c : Config) {v : Nat} (hv : v < 2 ^ c.mw) : v < 2 ^ xlen c :=
  hv.trans_le (Nat.pow_le_pow_right (by omega) (by unfold xlen; omega))

/-- The response to an access is no part of the block's state (R64). -/
theorem respond (h : s.Inv) (r : Response) : (s.respond r).Inv :=
  { h with inReset := fun hp => congrArg (State.respond · r) (h.inReset hp) }

/-- The host's events are no part of the block's state. -/
theorem setInbox (h : s.Inv) (l : List HostEvent) : ({ s with inbox := l } : State).Inv :=
  { h with inReset := fun hp => congrArg (fun u : State => { u with inbox := l }) (h.inReset hp) }

/-- Every piece of state at its reset value meets the invariant, whatever the reset input is (R260, R261). -/
theorem of_applyReset (hlegal : s.cfg.legal = true) (p : Phase) : ({ s.applyReset with phase := p } : State).Inv where
  legal := hlegal
  regs r := by
    show s.applyReset.readX r < _
    simp
  naive := ⟨nofun, fun _ => rfl⟩
  mont := ⟨nofun, fun _ => ⟨rfl, rfl, rfl, rfl⟩⟩
  barrett := ⟨nofun, fun _ => ⟨rfl, rfl, rfl⟩⟩
  noError _ := ⟨rfl, rfl, rfl, rfl⟩
  anError := nofun
  operand := rfl
  corrections := Nat.zero_le 3
  inReset _ := rfl

/-- Power loss leaves the numbers of the state as they were (log entry 9). -/
theorem losePower (h : s.Inv) : (losePower s).Inv := { h with inReset := nofun }

/-- Asserting reset (R260). -/
theorem assertReset (h : s.Inv) : (assertReset s).Inv := of_applyReset h.legal .inReset

/-- Releasing reset (R260, R261). -/
theorem releaseReset (h : s.Inv) : (releaseReset s).Inv := by
  unfold Machine.releaseReset
  split
  · exact of_applyReset h.legal .running
  · exact h

/-- While the block runs reset is not asserted, so nothing is asked of the state for reset's sake. -/
theorem inReset_of_running {P : Prop} (hp : s.phase = .running) (hr : s.phase = .inReset) : P := by
  cases hp.symm.trans hr

section Running

variable (h : s.Inv) (hp : s.phase = .running)

include h hp

/-- A data register takes any value of `XLEN` bits (R20). -/
theorem writeX {rd : Reg} {v : Nat} (hv : v < 2 ^ xlen s.cfg) : (s.writeX rd v).Inv :=
  { h with
    regs := fun r => by
      rw [State.readX_writeX]
      split
      · exact hv
      · exact h.regs r
    inReset := inReset_of_running hp }

/-- `FSUB` takes any bit (R38). -/
theorem writeFsub (f : Bool) : (s.writeFsub f).Inv := { h with inReset := inReset_of_running hp }

/-- `BCNT` takes a count of at most three (R39). -/
theorem writeBcnt {c : Nat} (hc : c ≤ 3) : (s.writeBcnt c).Inv :=
  { h with
    corrections := by
      rw [State.writeBcnt_bcnt, BitVec.toNat_ofNat]
      omega
    inReset := inReset_of_running hp }

/-- `CTRL` takes any word (R34). -/
theorem writeCtrl (w : Word) : (s.writeCtrl w).Inv := { h with inReset := inReset_of_running hp }

/-- The naive engine takes a valid context (R28). -/
theorem setNaive {n : Nat} (hpos : 0 < n) (hfit : n < 2 ^ s.cfg.mw) :
    ({ s with naive := { nv := true, nn := n } } : State).Inv :=
  { h with naive := ⟨fun _ => ⟨hpos, hfit⟩, nofun⟩, inReset := inReset_of_running hp }

/-- The Montgomery engine takes a valid context (R28). -/
theorem setMont {c : MontCtx} (hv : c.mv = true) (hc : c.Valid s.cfg.mw) : ({ s with mont := c } : State).Inv :=
  { h with mont := ⟨fun _ => hc, fun hf => by cases hv.symm.trans hf⟩, inReset := inReset_of_running hp }

/-- The Barrett engine takes a valid context (R28). -/
theorem setBarrett {c : BarrettCtx} (hv : c.bv = true) (hc : c.Valid s.cfg.mw) :
    ({ s with barrett := c } : State).Inv :=
  { h with barrett := ⟨fun _ => hc, fun hf => by cases hv.symm.trans hf⟩, inReset := inReset_of_running hp }

/-- Taking an error with a cause and an operand of the table of R221. -/
theorem raise (w : Word) {e : Cause} {o : Opnd} (he : e ≠ .none) (ho : causeAllows e o = true) : (s.raise w e o).Inv :=
  { h with noError := nofun, anError := fun _ => he, operand := ho, inReset := inReset_of_running hp }

/-- Dropping a command in the error state (R235). -/
theorem drop (herr : s.err = true) : s.drop.Inv :=
  { h with noError := fun hf => (by cases herr.symm.trans hf), inReset := inReset_of_running hp }

/-- Leaving the error state (R215). -/
theorem clearError : s.clearError.Inv :=
  { h with
    noError := fun _ => ⟨rfl, rfl, rfl, rfl⟩
    anError := nofun
    operand := rfl
    inReset := inReset_of_running hp }

end Running

end State.Inv

end Sys2Proof.Machine
end

section
/-! The invariant along a command, a command cycle, an access, an event and a step (O31). -/

namespace Sys2Proof.Laws

open Sys2Proof.Machine

section

variable {s : State} (h : s.Inv) (hp : s.phase = .running)

include h

/-- A value below a valid naive modulus fits a data register. -/
theorem fits_of_lt_nn (hv : s.naive.nv = true) {v : Nat} (hlt : v < s.naive.nn) : v < 2 ^ xlen s.cfg :=
  State.Inv.fits_xlen s.cfg (hlt.trans (h.naive.valid hv).2)

/-- A value below a valid Montgomery modulus fits a data register. -/
theorem fits_of_lt_mn (hv : s.mont.mv = true) {v : Nat} (hlt : v < s.mont.mn) : v < 2 ^ xlen s.cfg :=
  State.Inv.fits_xlen s.cfg (hlt.trans (h.mont.valid hv).fits)

/-- A value below a valid Barrett modulus fits a data register. -/
theorem fits_of_lt_bn (hv : s.barrett.bv = true) {v : Nat} (hlt : v < s.barrett.bn) : v < 2 ^ xlen s.cfg :=
  State.Inv.fits_xlen s.cfg (hlt.trans (h.barrett.valid hv).fits)

/-- A replaced word of a data register leaves its value within `XLEN` bits (R20, R67). -/
theorem replaceWord_fits {off j : Nat} {i : Reg} (hs : slotAt s.cfg off = some (.x i j)) (w : Word) :
    replaceWord (s.readX i) j w < 2 ^ xlen s.cfg := by
  have hmw : s.cfg.mw % 16 = 0 := by
    have hl := h.legal
    simp [Config.legal] at hl
    omega
  have hx : xlen s.cfg = 32 * wx s.cfg := by
    unfold xlen wx
    omega
  have hv := h.regs i
  rw [hx] at hv ⊢
  exact replaceWord_lt _ _ _ w (word_lt_of_slotAt_x hs) hv

include hp

/-- The commit of a `redc` of an operand below `N * R` (R156, R157). -/
theorem inv_of_redc (rd : Reg) {T : Nat} (hv : s.mont.mv = true) (hT : T < s.mont.mn * s.mont.mr) :
    ((s.writeX rd (redc s.mont T).1).writeFsub (redc s.mont T).2).Inv :=
  (h.writeX hp (fits_of_lt_mn h hv (redc_lt (h.mont.valid hv) hT))).writeFsub hp _

/-- The commit of a `breduce` of an operand below `N * N` (R183, R185). -/
theorem inv_of_breduce (rd : Reg) {v : Nat} (hv : s.barrett.bv = true) (hlt : v < s.barrett.bn * s.barrett.bn) :
    ((s.writeX rd (breduce s.barrett v).1).writeBcnt (breduce s.barrett v).2).Inv :=
  have hc := h.barrett.valid hv
  (h.writeX hp (fits_of_lt_bn h hv (breduce_lt hc v))).writeBcnt hp (breduce_corrections_le hc hlt)

/-- R15: what a command commits when its checks hold meets the invariant. -/
theorem commitOf_inv (i : Instr) (hchecks : firstFailure (checksOf i s) = none) : (commitOf i s).Inv := by
  rw [firstFailure_eq_none_iff] at hchecks
  cases i <;>
    simp only [checksOf, List.forall_mem_cons, List.not_mem_nil, false_imp_iff, implies_true, and_true,
      needsContext_fails, needsBelow_fails, needsPositive_fails, needsCoprime_fails, needsModulus_fails_eq_false,
      Bool.not_eq_false', decide_eq_false_iff_not, not_le] at hchecks
  case consN =>
    obtain ⟨hpos, -, hfit⟩ := hchecks
    exact h.setNaive hp hpos hfit
  case consM =>
    obtain ⟨-, hodd, hfit⟩ := hchecks
    exact h.setMont hp rfl (montContext_valid (hodd trivial) hfit)
  case consB =>
    obtain ⟨hpos, -, hfit⟩ := hchecks
    exact h.setBarrett hp rfl (barrettContext_valid hpos hfit)
  case mulN =>
    obtain ⟨hv, ha, -⟩ := hchecks
    exact h.writeX hp (fits_of_lt_nn h hv (Nat.mod_lt _ (by omega)))
  case mulM rd rs1 rs2 =>
    obtain ⟨hv, ha, hb⟩ := hchecks
    have hNR : s.mont.mn ≤ s.mont.mr := by
      obtain ⟨-, -, hk, hr, -⟩ := h.mont.valid hv
      rw [hr, hk]
      exact (lt_two_pow_bitlength _).le
    exact inv_of_redc h hp rd hv ((Nat.mul_lt_mul'' ha hb).trans_le (Nat.mul_le_mul_left _ hNR))
  case mulB rd rs1 rs2 =>
    obtain ⟨hv, ha, hb⟩ := hchecks
    exact inv_of_breduce h hp rd hv (Nat.mul_lt_mul'' ha hb)
  case dinN | doutN =>
    obtain ⟨hv, ha⟩ := hchecks
    exact h.writeX hp (fits_of_lt_nn h hv ha)
  case dinM =>
    obtain ⟨hv, ha⟩ := hchecks
    exact h.writeX hp (fits_of_lt_mn h hv (Nat.mod_lt _ (by omega)))
  case doutM rd rs1 =>
    obtain ⟨hv, ha⟩ := hchecks
    have hR : 0 < s.mont.mr := (h.mont.valid hv).radix ▸ Nat.two_pow_pos _
    exact inv_of_redc h hp rd hv (ha.trans_le (Nat.le_mul_of_pos_right _ hR))
  case dinB | doutB =>
    obtain ⟨hv, ha⟩ := hchecks
    exact h.writeX hp (fits_of_lt_bn h hv ha)
  case redM rd rs1 =>
    obtain ⟨hv, ha⟩ := hchecks
    exact inv_of_redc h hp rd hv ha
  case redB rd rs1 =>
    obtain ⟨hv, ha⟩ := hchecks
    exact inv_of_breduce h hp rd hv ha
  case inv rd rs1 rs2 =>
    obtain ⟨-, hpos, -⟩ := hchecks
    exact h.writeX hp ((inverseMod_lt _ (Nat.pos_of_ne_zero hpos)).trans (h.regs rs2))
  case clrerr => exact h.clearError hp

/-- A command's rule keeps the invariant while the block runs: it raises a listed error or commits (R15, R122). -/
theorem exec_inv {i : Instr} {t : State} (hx : exec i s = .next t) : t.Inv := by
  rcases exec_cases i s with ⟨e, o, hfail, hr⟩ | ⟨hchecks, hc⟩
  · obtain ⟨c, hmem, rfl, rfl⟩ := exists_check_of_firstFailure hfail
    obtain ⟨he, ho⟩ := checksOf_raises_listed i s c hmem
    cases hr.symm.trans hx
    exact h.raise hp _ he ho
  · cases hc.symm.trans hx
    exact commitOf_inv h hp i hchecks

/-- The command cycle keeps the invariant while the block runs (R120). -/
theorem issue_inv {w : Word} {t : State} (hi : issue w s = .next t) : t.Inv := by
  rcases issue_cases w s with ⟨-, -, ht⟩ | ⟨herr, -, ht⟩ | ⟨-, -, ht⟩ | ⟨-, i, -, ht⟩
  · cases ht.symm.trans hi
    exact h.clearError hp
  · cases ht.symm.trans hi
    exact h.drop hp herr
  · cases ht.symm.trans hi
    exact h.raise hp w (by decide) rfl
  · exact exec_inv h hp (ht.symm.trans hi)

/-- A bus write keeps the invariant while the block runs (R64, R65, R68). -/
theorem busWrite_inv {off : Nat} {w : Word} {t : State} (hb : busWrite off w s = .next t) : t.Inv := by
  rcases busWrite_cases off w s with ⟨-, u, hu, ht⟩ | ⟨-, ht⟩ | ⟨i, j, hs, ht⟩ | ht <;> cases ht.symm.trans hb
  · exact (issue_inv h hp hu).respond _
  · exact (h.writeCtrl hp w).respond _
  · exact (h.writeX hp (replaceWord_fits h hs w)).respond _
  · exact h.respond _

end

/-- Every event keeps the invariant, in any phase (R248, R249, R260). -/
theorem performEvent_inv {s t : State} (h : s.Inv) {e : HostEvent} (he : performEvent e s = .next t) : t.Inv := by
  cases e with
  | read width addr =>
    obtain ⟨r, rfl, -⟩ := performRead_cases width addr s t he
    exact h.respond r
  | write width addr data =>
    rcases performWrite_cases width addr data s t he with rfl | ⟨hp, rfl | ⟨-, hb⟩⟩
    · exact h.respond _
    · exact h.respond _
    · exact busWrite_inv h hp hb
  | assertReset =>
    cases he
    exact h.assertReset
  | releaseReset =>
    cases he
    exact h.releaseReset
  | powerLoss =>
    cases he
    exact h.losePower

end Sys2Proof.Laws

namespace Sys2Proof.Certificates

open Sys2Proof.Machine Sys2Proof.Laws

/-- Settles O31: a step rests or performs one event, and each event keeps the invariant. -/
theorem stepKeepsInvariant : Obligations.StepKeepsInvariant := by
  intro s t h hstep
  rcases step_cases s t hstep with ⟨-, rfl⟩ | ⟨e, rest, -, he⟩
  · exact h
  · exact performEvent_inv (h.setInbox rest) he

/-- Settles O55: outside the window neither access reaches the block, so the phase does not matter. -/
theorem accessOutsideWindowIsNotTheBlocks : Obligations.AccessOutsideWindowIsNotTheBlocks := by
  intro s width addr data hout
  simp [performRead, performWrite, inWindow_eq_false hout, State.respond]

end Sys2Proof.Certificates
end

section
/-! SUPPORT. What a command's commit changes and keeps (R20, R27, R38, R39), that no command reads a result flag (R40), and
what the offset of a mapped word and the fields of a status word are (R66, R31 to R35). -/

namespace Sys2Proof.Machine

/-- `s` with both result flags replaced. -/
def State.setFlags (s : State) (f : Bool) (c : BitVec 3) : State := { s with fsub := f, bcnt := c }

/-- Two bit strings put together, as a number. -/
theorem toNat_append_eq_add {m n : Nat} (a : BitVec m) (b : BitVec n) :
    (a ++ b).toNat = a.toNat * 2 ^ n + b.toNat := by
  rw [BitVec.toNat_append, ← Nat.shiftLeft_add_eq_or_of_lt b.isLt, Nat.shiftLeft_eq]

/-- R6: legal parameters hold at most 1024 bits in a modulus. -/
theorem Config.mw_le_of_legal {c : Config} (h : c.legal = true) : c.mw ≤ 1024 := by
  simp only [Config.legal, Bool.and_eq_true, decide_eq_true_eq] at h
  obtain ⟨⟨⟨-, hle⟩, -⟩, -⟩ := h
  exact hle

/-- R32: `PARAM` is `MW`, `NREG` 8 at bit 16 and `VER` 1 at bit 20. -/
theorem paramWord_toNat {c : Config} (h : c.legal = true) :
    (paramWord c).toNat = c.mw + 8 * 2 ^ 16 + 1 * 2 ^ 20 := by
  have hmw := Config.mw_le_of_legal h
  simp only [paramWord, toNat_append_eq_add, BitVec.toNat_ofNat]
  omega

/-- R33: `STATUS` is its fields at their bits. -/
theorem State.statusWord_toNat (s : State) : s.statusWord.toNat =
    s.err.toNat + 2 * s.eovf.toNat + 4 * s.naive.nv.toNat + 8 * s.mont.mv.toNat + 16 * s.barrett.bv.toNat +
      32 * s.fsub.toNat + 256 * s.bcnt.toNat := by
  simp only [State.statusWord, toNat_append_eq_add, BitVec.toNat_ofNat, BitVec.toNat_ofBool]
  omega

/-- R34: `CTRL` holds `IRQEN` in bit 0 and 0 elsewhere. -/
theorem State.getLsbD_ctrlWord (s : State) (k : Nat) : s.ctrlWord.getLsbD k = (decide (k = 0) && s.irqen) := by
  have happ : s.ctrlWord.getLsbD k = if k < 1 then (BitVec.ofBool s.irqen).getLsbD k else (0#31).getLsbD (k - 1) :=
    BitVec.getLsbD_append
  rw [happ]
  cases k <;> simp

/-- R35: `ECAUSE` is the cause code in bits 3:0 and the operand code above. -/
theorem State.ecauseWord_toNat (s : State) :
    s.ecauseWord.toNat = 16 * (opndCode s.opnd).toNat + (causeCode s.cause).toNat := by
  simp only [State.ecauseWord, toNat_append_eq_add, BitVec.toNat_ofNat]
  omega

end Sys2Proof.Machine

namespace Sys2Proof.Laws

open Sys2Proof.Machine

@[simp] theorem slotAt_id (c : Config) : slotAt c 0x0000 = some .id := rfl
@[simp] theorem slotAt_param (c : Config) : slotAt c 0x0004 = some .param := rfl
@[simp] theorem slotAt_status (c : Config) : slotAt c 0x0008 = some .status := rfl
@[simp] theorem slotAt_ctrl (c : Config) : slotAt c 0x000C = some .ctrl := rfl
@[simp] theorem slotAt_ecause (c : Config) : slotAt c 0x0014 = some .ecause := rfl
@[simp] theorem slotAt_ecmd (c : Config) : slotAt c 0x0018 = some .ecmd := rfl

/-- R64, R66: a bus read of a mapped word reads its register. -/
theorem busRead_of_slotAt {s : State} {off : Nat} {sl : Slot} (h : slotAt s.cfg off = some sl) :
    busRead s off = readSlot s sl := by
  rw [busRead, h, Option.bind_some]

/-- R66: a mapped word stands at its own offset. -/
theorem eq_slotOffset_of_slotAt {c : Config} {off : Nat} {sl : Slot} (h : slotAt c off = some sl) :
    off = slotOffset sl := by
  unfold slotAt at h
  split at h
  · next halign =>
    obtain ⟨r, hr, rfl⟩ := Option.map_eq_some_iff.mp h
    have hin : r.start ≤ off ∧ off < r.start + 4 * r.words := by simpa [inRegion] using List.find?_some hr
    have hmap : ∀ r ∈ regions c, r.start % 4 = 0 ∧ ∀ j < r.words, slotOffset (r.slot j) = r.start + 4 * j := by
      have hx : ∀ i : Reg, (0x1000 + 0x100 * i.val) % 4 = 0 := fun i => by omega
      simp [regions, or_imp, forall_and, slotOffset, hx]
    obtain ⟨hstart, hslot⟩ := hmap r (List.mem_of_find?_eq_some hr)
    rw [hslot _ (by omega)]
    omega
  · cases h

/-- R66, R68: with legal parameters every word the host may write stands below the context windows. -/
theorem offset_lt_of_slotWritable {c : Config} {off : Nat} {sl : Slot} (hc : c.legal = true)
    (h : slotAt c off = some sl) (hw : slotWritable sl = true) : off < 0x2000 := by
  have hoff := eq_slotOffset_of_slotAt h
  cases sl <;> simp only [slotWritable, Bool.false_eq_true] at hw <;> simp only [slotOffset] at hoff
  case ctrl | cmd => omega
  case x i j =>
    have hj := word_lt_of_slotAt_x h
    have hmw := Config.mw_le_of_legal hc
    unfold wx at hj
    omega

/-- R65, R68: a bus write where no writable word stands is a bus error. -/
theorem busWrite_of_not_slotWritable {off : Nat} (w : Word) {s : State}
    (h : ∀ sl, slotAt s.cfg off = some sl → slotWritable sl = false) :
    busWrite off w s = .next (s.respond .busError) := by
  rcases busWrite_cases off w s with ⟨hs, -⟩ | ⟨hs, -⟩ | ⟨i, j, hs, -⟩ | hb
  · cases h _ hs
  · cases h _ hs
  · cases h _ hs
  · exact hb

section

variable {i : Instr} {s t : State}

/-- A command that answers `t` took an error or committed. -/
theorem eq_of_exec_eq_next (h : exec i s = .next t) : (∃ e o, t = s.raise (encode i) e o) ∨ t = commitOf i s := by
  rcases exec_cases i s with ⟨e, o, -, hr⟩ | ⟨-, hc⟩
  · cases hr.symm.trans h
    exact .inl ⟨e, o, rfl⟩
  · cases hc.symm.trans h
    exact .inr rfl

/-- R27: only CONS.N commits a naive context. -/
theorem eq_consN_of_commitOf_naive_ne (h : (commitOf i s).naive ≠ s.naive) : ∃ rs1, i = .consN rs1 := by
  cases i
  case consN rs1 => exact ⟨rs1, rfl⟩
  all_goals exact absurd rfl h

/-- R27: only CONS.M commits a Montgomery context. -/
theorem eq_consM_of_commitOf_mont_ne (h : (commitOf i s).mont ≠ s.mont) : ∃ rs1, i = .consM rs1 := by
  cases i
  case consM rs1 => exact ⟨rs1, rfl⟩
  all_goals exact absurd rfl h

/-- R27: only CONS.B commits a Barrett context. -/
theorem eq_consB_of_commitOf_barrett_ne (h : (commitOf i s).barrett ≠ s.barrett) : ∃ rs1, i = .consB rs1 := by
  cases i
  case consB rs1 => exact ⟨rs1, rfl⟩
  all_goals exact absurd rfl h

/-- R38: the commands that write `FSUB`. -/
theorem writesFsub_iff : writesFsub i = true ↔
    (∃ rd a b, i = .mulM rd a b) ∨ (∃ rd a, i = .doutM rd a) ∨ (∃ rd a, i = .redM rd a) := by
  cases i <;> simp [writesFsub]

/-- R39: the commands that write `BCNT`. -/
theorem writesBcnt_iff : writesBcnt i = true ↔ (∃ rd a b, i = .mulB rd a b) ∨ (∃ rd a, i = .redB rd a) := by
  cases i <;> simp [writesBcnt]

/-- R20, R92: a commit changes no data register but the one of its `RD` field. -/
theorem readX_commitOf {r : Reg} (h : rdOf i ≠ some r) : (commitOf i s).readX r = s.readX r := by
  cases i
  case consN | consM | consB | clrerr => rfl
  all_goals
    have hr : _ ≠ r := fun he => h (congrArg some he)
    simp [commitOf, State.readX_writeX_other s _ hr]

/-- R38: a commit leaves `FSUB` as it was unless its command writes it. -/
theorem fsub_commitOf (h : writesFsub i = false) : (commitOf i s).fsub = s.fsub := by
  cases i
  case mulM | doutM | redM => cases h
  all_goals rfl

/-- R39: a commit leaves `BCNT` as it was unless its command writes it. -/
theorem bcnt_commitOf (h : writesBcnt i = false) : (commitOf i s).bcnt = s.bcnt := by
  cases i
  case mulB | redB => cases h
  all_goals rfl

/-- A commit outside the error state is no way into it (R122). -/
theorem err_commitOf (h : s.err = false) : (commitOf i s).err = false := by
  cases i
  case clrerr => rfl
  all_goals exact h

/-- R215, R235: only CLRERR commits a change of `EOVF`. -/
theorem eovf_commitOf (h : i ≠ .clrerr) : (commitOf i s).eovf = s.eovf := by
  cases i
  case clrerr => exact absurd rfl h
  all_goals rfl

/-- R20, R34: no commit changes `CTRL`, the reset and supply, the parameters, the host's events or the responses. -/
theorem commitOf_frame : (commitOf i s).irqen = s.irqen ∧ (commitOf i s).phase = s.phase ∧
    (commitOf i s).cfg = s.cfg ∧ (commitOf i s).inbox = s.inbox ∧ (commitOf i s).log = s.log := by
  cases i <;> exact ⟨rfl, rfl, rfl, rfl, rfl⟩

end

/-- R40: no check reads a result flag. -/
theorem checksOf_setFlags (i : Instr) (s : State) (f : Bool) (c : BitVec 3) :
    checksOf i (s.setFlags f c) = checksOf i s := by
  cases i <;> rfl

/-- R40: with the result flags replaced, a commit is the same, and a flag its command does not write stays as replaced. -/
theorem commitOf_setFlags (i : Instr) (s : State) (f : Bool) (c : BitVec 3) :
    commitOf i (s.setFlags f c) = (commitOf i s).setFlags
      (if writesFsub i then (commitOf i s).fsub else f) (if writesBcnt i then (commitOf i s).bcnt else c) := by
  cases i <;> rfl

/-- R40: with the result flags replaced, a command fails the same check or commits the same. -/
theorem exec_setFlags_cases (i : Instr) (s : State) (f : Bool) (c : BitVec 3) :
    (∃ e o, exec i s = .next (s.raise (encode i) e o) ∧
      exec i (s.setFlags f c) = .next ((s.raise (encode i) e o).setFlags f c)) ∨
    (exec i s = .next (commitOf i s) ∧
      exec i (s.setFlags f c) = .next ((commitOf i s).setFlags
        (if writesFsub i then (commitOf i s).fsub else f) (if writesBcnt i then (commitOf i s).bcnt else c))) := by
  rw [exec_eq_conclude i (s.setFlags f c), checksOf_setFlags, commitOf_setFlags, exec_eq_conclude]
  cases h : firstFailure (checksOf i s) with
  | some p => exact .inl ⟨p.1, p.2, by simp only [conclude, h], by simp only [conclude, h]; rfl⟩
  | none => exact .inr ⟨by simp only [conclude, h], by simp only [conclude, h]⟩

end Sys2Proof.Laws
end

section
/-! The context, flag and register frames of the commands, and the words of the control registers (O35 to O38, O48, O49). -/

namespace Sys2Proof.Certificates

open Sys2Proof.Machine Sys2Proof.Laws

/-- Settles O35: a raised error keeps every context, a commit changes one in its own CONS only, and no word from `0x2000` on is
writable. -/
theorem contextsWrittenByOwnConsOnly : Obligations.ContextsWrittenByOwnConsOnly := by
  refine ⟨fun i s t h => ?_, fun s off w hlegal hlo _ => ?_⟩
  · rcases eq_of_exec_eq_next h with ⟨e, o, rfl⟩ | rfl
    · exact ⟨absurd rfl, absurd rfl, absurd rfl⟩
    · exact ⟨eq_consN_of_commitOf_naive_ne, eq_consM_of_commitOf_mont_ne, eq_consB_of_commitOf_barrett_ne⟩
  · refine busWrite_of_not_slotWritable w fun sl hs => ?_
    by_contra hw
    have hlt := offset_lt_of_slotWritable hlegal hs (by simpa using hw)
    omega

/-- Settles O36: a raised error keeps both flags, and a commit writes each in its own commands only. -/
theorem flagsWrittenByTheirCommandsOnly : Obligations.FlagsWrittenByTheirCommandsOnly := by
  intro i s t h
  rcases eq_of_exec_eq_next h with ⟨e, o, rfl⟩ | rfl
  · exact ⟨absurd rfl, absurd rfl, fun _ _ => ⟨rfl, rfl⟩⟩
  · refine ⟨fun hne => writesFsub_iff.mp ?_, fun hne => writesBcnt_iff.mp ?_, fun hs ht => ?_⟩
    · exact Bool.eq_true_of_not_eq_false fun hw => hne (fsub_commitOf hw)
    · exact Bool.eq_true_of_not_eq_false fun hw => hne (bcnt_commitOf hw)
    · cases (err_commitOf hs).symm.trans ht

/-- Settles O37: a raised error writes the error registers alone, and a commit has the frame. -/
theorem commandFrame : Obligations.CommandFrame := by
  intro i s t h
  rcases eq_of_exec_eq_next h with ⟨e, o, rfl⟩ | rfl
  · exact ⟨fun _ _ => rfl, rfl, rfl, rfl, rfl, rfl, fun _ => rfl⟩
  · obtain ⟨hirqen, hphase, hcfg, hinbox, hlog⟩ := commitOf_frame (i := i) (s := s)
    exact ⟨fun _ => readX_commitOf, hirqen, hphase, hcfg, hinbox, hlog, eovf_commitOf⟩

/-- Settles O38: the two runs raise the same error, which keeps both flags, or commit the same but for the flags that the
command does not write. -/
theorem commandsIgnoreFlags : Obligations.CommandsIgnoreFlags := by
  intro i s f c
  rcases exec_setFlags_cases i s f c with ⟨e, o, h, h'⟩ | ⟨h, h'⟩
  · exact ⟨_, _, h, h', rfl, .inr ⟨rfl, rfl⟩, .inr ⟨rfl, rfl⟩, fun _ => by simp [State.setFlags]⟩
  · refine ⟨_, _, h, h', rfl, ?_, ?_, fun herr => ?_⟩
    · cases hw : writesFsub i with
      | true => exact .inl rfl
      | false => exact .inr ⟨fsub_commitOf hw, rfl⟩
    · cases hw : writesBcnt i with
      | true => exact .inl rfl
      | false => exact .inr ⟨bcnt_commitOf hw, rfl⟩
    · have ht : (commitOf i s).err = false := err_commitOf herr
      constructor
      · cases hw : writesFsub i <;> simp [State.setFlags, fsub_commitOf, hw, ht]
      · cases hw : writesBcnt i <;> simp [State.setFlags, bcnt_commitOf, hw, ht]

/-- Settles O48: offset `0x000C` is `CTRL`, whose word is `IRQEN` in bit 0. -/
theorem ctrlStoresBitZero : Obligations.CtrlStoresBitZero := by
  intro s w
  have hread : busRead s 0x000C = some s.ctrlWord := busRead_of_slotAt (slotAt_ctrl _)
  refine ⟨by simp [busWrite, State.writeCtrl, State.respond], fun v hv => ?_, by simp [hread]⟩
  obtain rfl : s.ctrlWord = v := by simpa [hread] using hv
  refine ⟨s.getLsbD_ctrlWord 0, fun k hk => ?_⟩
  rw [s.getLsbD_ctrlWord, decide_eq_false (by omega), Bool.false_and]

/-- Settles O49: each offset is its register's, and the numbers of the words are those of their fields. -/
theorem statusWordsAsLaidOut : Obligations.StatusWordsAsLaidOut := by
  intro s hlegal
  have hcode : s.ecauseWord.toNat % 16 = (causeCode s.cause).toNat := by
    rw [s.ecauseWord_toNat]
    omega
  have hopnd : s.ecauseWord.toNat / 16 = (opndCode s.opnd).toNat := by
    rw [s.ecauseWord_toNat]
    omega
  refine ⟨busRead_of_slotAt (slotAt_id _),
    ⟨paramWord s.cfg, busRead_of_slotAt (slotAt_param _), paramWord_toNat hlegal⟩,
    ⟨s.statusWord, busRead_of_slotAt (slotAt_status _), s.statusWord_toNat⟩,
    ⟨s.ecauseWord, busRead_of_slotAt (slotAt_ecause _), ?_⟩, busRead_of_slotAt (slotAt_ecmd _)⟩
  rw [hcode, hopnd]
  refine ⟨?_, ?_, ?_, ?_, ?_, ?_, ?_, ?_, ?_⟩ <;> intro h <;> rw [h] <;> rfl

end Sys2Proof.Certificates
end

section
/-! SUPPORT. The register window's map, read in both directions (R66): its regions stand in ascending order without overlap, so
an offset is decoded to the one word it belongs to. -/

namespace Sys2Proof.Machine

/-- A region of the map ends before a later one starts. -/
def Region.Before (r r' : Region) : Prop := r.start + 4 * r.words ≤ r'.start

/-- R6: legal parameters make `MW` a whole number of halfwords. -/
theorem Config.mw_mod_of_legal {c : Config} (h : c.legal = true) : c.mw % 16 = 0 := by
  simp only [Config.legal, Bool.and_eq_true, decide_eq_true_eq] at h
  obtain ⟨⟨-, hmod⟩, -⟩ := h
  exact hmod

/-- R66: `WX` words are the whole width of a data register. -/
theorem lt_wx_iff {c : Config} (hc : c.legal = true) (j : Nat) : j < wx c ↔ 16 * j < c.mw := by
  have hmod := Config.mw_mod_of_legal hc
  unfold wx
  omega

/-- R66: `WC` words hold the `MW + 2` bits of a context register, and no word fewer does. -/
theorem lt_wc_iff (c : Config) (j : Nat) : j < wc c ↔ 32 * j < c.mw + 2 := by
  unfold wc
  omega

/-- R66: with legal parameters the regions of the map ascend and do not overlap: a data register takes at most the `0x100`
bytes to the next one, and a context register fewer. -/
theorem regions_pairwise_before {c : Config} (hc : c.legal = true) : (regions c).Pairwise Region.Before := by
  have hmw := Config.mw_le_of_legal hc
  have hx : 4 * wx c ≤ 0x100 := by
    unfold wx
    omega
  have hctx : 4 * wc c ≤ 0x100 := by
    unfold wc
    omega
  have htrans : IsTrans Region Region.Before := ⟨fun r₁ r₂ r₃ => by
    unfold Region.Before
    omega⟩
  rw [← List.isChain_iff_pairwise]
  simp only [regions, List.finRange_succ, List.finRange_zero]
  simp [Region.Before]
  omega

/-- Among regions in ascending order, the one that holds an offset is the one the decoder finds. -/
theorem find?_inRegion_of_mem {l : List Region} (hl : l.Pairwise Region.Before) {r : Region} (hr : r ∈ l) {off : Nat}
    (hin : inRegion off r = true) : l.find? (inRegion off) = some r := by
  induction l with
  | nil => cases hr
  | cons r₀ l ih =>
    obtain ⟨hbefore, hl⟩ := List.pairwise_cons.mp hl
    rcases List.mem_cons.mp hr with rfl | hmem
    · exact List.find?_cons_of_pos hin
    · have hout : ¬ inRegion off r₀ = true := by
        have hend := hbefore r hmem
        simp only [inRegion, Bool.and_eq_true, decide_eq_true_eq, Region.Before] at hin hend ⊢
        omega
      rw [List.find?_cons_of_neg hout]
      exact ih hl hmem

end Sys2Proof.Machine

namespace Sys2Proof.Laws

open Sys2Proof.Machine

/-- R66, R67: a region of the map starts at a multiple of 4, and its words follow one another from there. -/
theorem slotOffset_of_mem_regions {c : Config} {r : Region} (hr : r ∈ regions c) :
    r.start % 4 = 0 ∧ ∀ j < r.words, slotOffset (r.slot j) = r.start + 4 * j := by
  have hx : ∀ i : Reg, (0x1000 + 0x100 * i.val) % 4 = 0 := fun i => by omega
  have hall : ∀ r ∈ regions c, r.start % 4 = 0 ∧ ∀ j < r.words, slotOffset (r.slot j) = r.start + 4 * j := by
    simp [regions, or_imp, forall_and, slotOffset, hx]
  exact hall r hr

/-- R66: the offset of a word of the map is decoded to that word. -/
theorem slotAt_slotOffset_of_mem_regions {c : Config} (hc : c.legal = true) {r : Region} (hr : r ∈ regions c) {j : Nat}
    (hj : j < r.words) : slotAt c (slotOffset (r.slot j)) = some (r.slot j) := by
  obtain ⟨halign, hoff⟩ := slotOffset_of_mem_regions hr
  have hin : inRegion (r.start + 4 * j) r = true := by
    simp only [inRegion, Bool.and_eq_true, decide_eq_true_eq]
    omega
  have hword : (r.start + 4 * j - r.start) / 4 = j := by omega
  rw [hoff j hj, slotAt, if_pos (by omega), find?_inRegion_of_mem (regions_pairwise_before hc) hr hin, Option.map_some,
    hword]

/-- R66: the words of the map's regions are exactly the words of a register within its width. -/
theorem exists_region_iff_slotMapped {c : Config} (hc : c.legal = true) {sl : Slot} :
    (∃ r ∈ regions c, ∃ j < r.words, r.slot j = sl) ↔ slotMapped c sl := by
  cases sl <;> simp [regions, or_and_right, exists_or, slotMapped, lt_wx_iff hc, lt_wc_iff]

/-- R66: with legal parameters an offset is decoded to a word exactly when it is the word's own and the word is mapped. -/
theorem slotAt_eq_some_iff {c : Config} (hc : c.legal = true) {off : Nat} {sl : Slot} :
    slotAt c off = some sl ↔ off = slotOffset sl ∧ slotMapped c sl := by
  constructor
  · intro h
    exact ⟨eq_slotOffset_of_slotAt h, (exists_region_iff_slotMapped hc).mp (exists_region_of_slotAt h)⟩
  · rintro ⟨rfl, hmapped⟩
    obtain ⟨r, hr, j, hj, rfl⟩ := (exists_region_iff_slotMapped hc).mpr hmapped
    exact slotAt_slotOffset_of_mem_regions hc hr hj

/-- R63: a misaligned offset is no word's. -/
theorem slotAt_of_misaligned (c : Config) {off : Nat} (h : off % 4 ≠ 0) : slotAt c off = none := if_neg h

end Sys2Proof.Laws
end

section
/-! SUPPORT. What one access of the window does (R62 to R68): a read of each mapped word, a write of each kind of word, and
both on the bus. -/

namespace Sys2Proof.Machine

/-- R66, R68: the words the host may write are `CTRL`, `CMD` and those of the data registers. -/
theorem slotWritable_iff {sl : Slot} : slotWritable sl = true ↔ sl = .ctrl ∨ sl = .cmd ∨ ∃ i j, sl = .x i j := by
  cases sl <;> simp [slotWritable]

/-- R37, R68: `CMD` is the only mapped word that is not read. -/
theorem readSlot_eq_none_iff {s : State} {sl : Slot} : readSlot s sl = none ↔ sl = .cmd := by
  cases sl <;> simp [readSlot]

/-- R67: what `replaceWord` computes, without slices. -/
theorem replaceWord_eq_sub_add (v j : Nat) (w : Word) :
    replaceWord v j w = v - v / 2 ^ (32 * j) % 2 ^ 32 * 2 ^ (32 * j) + w.toNat * 2 ^ (32 * j) := by
  have hwidth : 32 * j + 31 - 32 * j + 1 = 32 := by omega
  rw [replaceWord, bits, hwidth]

/-- R67: a replaced word reads as written, and the others as before. -/
theorem wordOf_replaceWord (v j k : Nat) (w : Word) :
    wordOf (replaceWord v j w) k = if k = j then w else wordOf v k := by
  apply BitVec.eq_of_toNat_eq
  rw [wordOf_toNat, word_replaceWord]
  split
  · rfl
  · rw [wordOf_toNat]

/-- R67: the second of two replacements of a word alone is seen. -/
theorem replaceWord_replaceWord (v j : Nat) (w w' : Word) :
    replaceWord (replaceWord v j w) j w' = replaceWord v j w' := by
  rw [replaceWord_eq_sub_add (replaceWord v j w), word_replaceWord, if_pos rfl, replaceWord_eq_sub_add v j w,
    Nat.add_sub_cancel, replaceWord_eq_sub_add v j w']

/-- Writing back what a data register holds changes nothing. -/
@[simp] theorem State.writeX_readX (s : State) (r : Reg) : s.writeX r (s.readX r) = s := by
  simp [State.writeX, State.readX]

/-- R67: with a word of a data register replaced, every other mapped word reads as before. -/
theorem readSlot_writeX_replaceWord (s : State) {i : Reg} {j : Nat} (w : Word) {sl : Slot} (h : sl ≠ .x i j) :
    readSlot (s.writeX i (replaceWord (s.readX i) j w)) sl = readSlot s sl := by
  cases sl
  case x r k =>
    by_cases hr : i = r
    · subst hr
      have hk : k ≠ j := fun hk => h (by rw [hk])
      simp [readSlot, wordOf_replaceWord, hk]
    · simp [readSlot, State.readX_writeX_other s _ hr]
  all_goals rfl

end Sys2Proof.Machine

namespace Sys2Proof.Laws

open Sys2Proof.Machine

section

variable {s : State} {off : Nat} (w : Word)

/-- R34, R64: a write of `CTRL`. -/
theorem busWrite_of_slotAt_ctrl (h : slotAt s.cfg off = some .ctrl) :
    busWrite off w s = .next ((s.writeCtrl w).respond .ok) := by
  simp only [busWrite, h]

/-- R64, R67: a write of a word of a data register. -/
theorem busWrite_of_slotAt_x {i : Reg} {j : Nat} (h : slotAt s.cfg off = some (.x i j)) :
    busWrite off w s = .next ((s.writeX i (replaceWord (s.readX i) j w)).respond .ok) := by
  simp only [busWrite, h]

/-- R64, R120: a write of `CMD` is the command cycle. -/
theorem busWrite_of_slotAt_cmd {t : State} (h : slotAt s.cfg off = some .cmd) (ht : issue w s = .next t) :
    busWrite off w s = .next (t.respond .ok) := by
  simp only [busWrite, h, ht, thenRespond]

end

/-- R120: the command cycle gives the host no response of its own. -/
theorem log_of_issue {w : Word} {s t : State} (h : issue w s = .next t) : t.log = s.log := by
  rcases issue_cases w s with ⟨-, -, ht⟩ | ⟨-, -, ht⟩ | ⟨-, -, ht⟩ | ⟨-, i, -, ht⟩
  · cases ht.symm.trans h
    rfl
  · cases ht.symm.trans h
    rfl
  · cases ht.symm.trans h
    rfl
  · rcases eq_of_exec_eq_next (ht.symm.trans h) with ⟨e, o, rfl⟩ | rfl
    · rfl
    · obtain ⟨-, -, -, -, hlog⟩ := commitOf_frame (i := i) (s := s)
      exact hlog

/-- R64, R68: a write of a writable word is performed, and its one response is OK. -/
theorem busWrite_of_slotWritable {s : State} {off : Nat} {sl : Slot} (w : Word) (h : slotAt s.cfg off = some sl)
    (hw : slotWritable sl = true) : ∃ t : State, t.log = s.log ∧ busWrite off w s = .next (t.respond .ok) := by
  rcases slotWritable_iff.mp hw with rfl | rfl | ⟨i, j, rfl⟩
  · exact ⟨s.writeCtrl w, rfl, busWrite_of_slotAt_ctrl w h⟩
  · obtain ⟨t, ht⟩ := issue_next w s
    exact ⟨t, log_of_issue ht, busWrite_of_slotAt_cmd w h ht⟩
  · exact ⟨s.writeX i (replaceWord (s.readX i) j w), rfl, busWrite_of_slotAt_x w h⟩

/-- R73: a write of any word but `CMD`, done again, gives a response and changes nothing. -/
theorem busWrite_again_of_ne_cmd {s t : State} {off : Nat} {w : Word} (hcmd : slotAt s.cfg off ≠ some .cmd)
    (h : busWrite off w s = .next t) : ∃ r, busWrite off w t = .next (t.respond r) := by
  by_cases hs : ∃ sl, slotAt s.cfg off = some sl ∧ slotWritable sl = true
  · obtain ⟨sl, hsl, hw⟩ := hs
    rcases slotWritable_iff.mp hw with rfl | rfl | ⟨i, j, rfl⟩
    · cases (busWrite_of_slotAt_ctrl w hsl).symm.trans h
      exact ⟨.ok, busWrite_of_slotAt_ctrl w hsl⟩
    · exact absurd hsl hcmd
    · have ht := Host.Outcome.next.inj ((busWrite_of_slotAt_x w hsl).symm.trans h)
      have hslot : slotAt t.cfg off = some (.x i j) := ht ▸ hsl
      have hread : t.readX i = replaceWord (s.readX i) j w := by simp [← ht]
      have hsame : replaceWord (t.readX i) j w = t.readX i := by rw [hread, replaceWord_replaceWord]
      exact ⟨.ok, by rw [busWrite_of_slotAt_x w hslot, hsame, State.writeX_readX]⟩
  · have hro : ∀ sl, slotAt s.cfg off = some sl → slotWritable sl = false := by simpa using hs
    cases (busWrite_of_not_slotWritable w hro).symm.trans h
    exact ⟨.busError, busWrite_of_not_slotWritable w hro⟩

/-- R67: the offset of a replaced word of a data register reads as written. -/
theorem busRead_writeX_replaceWord_same {s : State} {off : Nat} {i : Reg} {j : Nat} (w : Word)
    (h : slotAt s.cfg off = some (.x i j)) : busRead (s.writeX i (replaceWord (s.readX i) j w)) off = some w := by
  rw [busRead, State.writeX_cfg, h]
  simp [readSlot, wordOf_replaceWord]

/-- R67: with a word of a data register replaced, every offset but that word's reads as before. -/
theorem busRead_writeX_replaceWord_other {s : State} {off : Nat} {i : Reg} {j : Nat} (w : Word)
    (h : slotAt s.cfg off ≠ some (.x i j)) :
    busRead (s.writeX i (replaceWord (s.readX i) j w)) off = busRead s off := by
  rw [busRead, busRead, State.writeX_cfg]
  cases hs : slotAt s.cfg off with
  | none => rfl
  | some sl =>
    have hne : sl ≠ .x i j := fun he => h (by rw [hs, he])
    exact readSlot_writeX_replaceWord s w hne

/-- R65: a read finds no word exactly where none is mapped, or where `CMD` is. -/
theorem busRead_eq_none_iff {s : State} {off : Nat} :
    busRead s off = none ↔ slotAt s.cfg off = none ∨ slotAt s.cfg off = some .cmd := by
  cases h : slotAt s.cfg off <;> simp [busRead, h, readSlot_eq_none_iff]

section

variable {s : State} {off : Nat} (hp : s.phase = .running) (hoff : off < 0x4000)

include hp hoff

/-- R60: while the block runs, a read of the window is performed at its offset. -/
theorem performRead_of_running (width : Nat) : performRead width (s.cfg.base + off) s =
    if width = 32 then .next (s.respond ((busRead s off).elim .busError .data)) else .next (s.respond .busError) := by
  have hin : inWindow s.cfg (s.cfg.base + off) = true := by
    simp [inWindow, windowSize, hoff]
  rw [performRead, if_pos hin, whenRunning, hp, Nat.add_sub_cancel_left]
  cases busRead s off <;> rfl

/-- R60: while the block runs, a write of the window is performed at its offset. -/
theorem performWrite_of_running (width data : Nat) : performWrite width (s.cfg.base + off) data s =
    if width = 32 then busWrite off (BitVec.ofNat 32 data) s else .next (s.respond .busError) := by
  have hin : inWindow s.cfg (s.cfg.base + off) = true := by
    simp [inWindow, windowSize, hoff]
  rw [performWrite, if_pos hin, whenRunning, hp, Nat.add_sub_cancel_left]

end

end Sys2Proof.Laws
end

section
/-! The register window (20_memory.md): its map, its bus errors, and what its reads and writes change (O44 to O47). -/

namespace Sys2Proof.Certificates

open Sys2Proof.Machine Sys2Proof.Laws

/-- Settles O44: the regions of the map do not overlap, and their words are the mapped ones. -/
theorem windowMapIsExact : Obligations.WindowMapIsExact := fun _ _ _ hc => slotAt_eq_some_iff hc

/-- Settles O45: where a read finds no word or a write no writable one, the answer is the bus error alone. -/
theorem busErrorsChangeNothing : Obligations.BusErrorsChangeNothing := by
  intro s width off data hp hoff
  rw [performRead_of_running hp hoff, performWrite_of_running hp hoff]
  refine ⟨fun h => ?_, fun hw hs => ?_, fun h => ?_, fun hw hs => ?_⟩
  · by_cases hw : width = 32
    · have hnone : busRead s off = none := by
        rw [busRead_eq_none_iff]
        rcases h with h | h | h | h
        · exact absurd hw h
        · exact .inl (slotAt_of_misaligned _ h)
        · exact .inl h
        · exact .inr h
      rw [if_pos hw, hnone]
      rfl
    · exact if_neg hw
  · obtain ⟨sl, hsl, hcmd⟩ := hs
    obtain ⟨v, hv⟩ := Option.ne_none_iff_exists'.mp (readSlot_eq_none_iff (s := s).not.mpr hcmd)
    exact ⟨v, by rw [if_pos hw, busRead_of_slotAt hsl, hv]; rfl⟩
  · by_cases hw : width = 32
    · rw [if_pos hw]
      refine busWrite_of_not_slotWritable _ fun sl hsl => ?_
      rcases h with h | h | h
      · exact absurd hw h
      · cases (slotAt_of_misaligned _ h).symm.trans hsl
      · exact h sl hsl
    · exact if_neg hw
  · obtain ⟨sl, hsl, hwr⟩ := hs
    obtain ⟨t, hlog, ht⟩ := busWrite_of_slotWritable (BitVec.ofNat 32 data) hsl hwr
    exact ⟨t, by rw [if_pos hw, ht, State.respond, hlog]⟩

/-- Settles O46: a read adds its response alone, a plain write done again too, and a second illegal command finds the error
state of the first and sets `EOVF`. -/
theorem readsAndPlainWritesAreIdempotent : Obligations.ReadsAndPlainWritesAreIdempotent := by
  refine ⟨fun s t width addr h => ?_, fun s t u off w hcmd ht hu => ?_, ?_⟩
  · obtain ⟨r, rfl, -⟩ := performRead_cases width addr s t h
    rfl
  · obtain ⟨r, hr⟩ := busWrite_again_of_ne_cmd hcmd ht
    cases hr.symm.trans hu
    rfl
  · refine ⟨.reset, (State.reset.raise 0 .illegalCommand .none).respond .ok,
      ((State.reset.raise 0 .illegalCommand .none).respond .ok).drop.respond .ok, 0, rfl, rfl, fun h => ?_⟩
    cases congrArg State.eovf h

/-- Settles O47: the offset is that word's, so the write replaces it; any other offset is of another word, or of none. -/
theorem dataWordWriteReplacesThatWord : Obligations.DataWordWriteReplacesThatWord := by
  intro s i j w hc hj
  have hslot : slotAt s.cfg (0x1000 + 0x100 * i.val + 4 * j) = some (.x i j) := (slotAt_eq_some_iff hc).mpr ⟨rfl, hj⟩
  refine ⟨s.writeX i (replaceWord (s.readX i) j w), busWrite_of_slotAt_x w hslot, ?_,
    busRead_writeX_replaceWord_same w hslot, fun off hoff => ?_⟩
  · rw [← replaceWord_eq_sub_add]
    rfl
  · exact busRead_writeX_replaceWord_other w fun h => hoff (eq_slotOffset_of_slotAt h)

end Sys2Proof.Certificates
end

section
/-! SUPPORT. Which words each row of the opcode table selects, and that these are exactly the words of the commands
(R91, R95, R96, R100). -/

namespace Sys2Proof.Laws

/-! ## The fields of a word -/

/-- R91: a word is determined by its five fields. -/
theorem eq_of_fields_eq {w w' : Word} (hopc : fieldOpc w = fieldOpc w') (hrd : (fieldRd w).val = (fieldRd w').val)
    (hrs1 : (fieldRs1 w).val = (fieldRs1 w').val) (hrs2 : (fieldRs2 w).val = (fieldRs2 w').val)
    (hrsv : fieldRsv w = fieldRsv w') : w = w' := by
  apply BitVec.eq_of_toNat_eq
  simp only [fieldOpc, fieldRd, fieldRs1, fieldRs2, fieldRsv, Fin.ofNat] at hopc hrd hrs1 hrs2 hrsv
  omega

/-- R100: the word of every command holds the command's fields. -/
theorem fields_encode (i : Instr) : Fields.Statement i := by
  cases i with
  | consN rs1 => exact Fields.consN rs1
  | consM rs1 => exact Fields.consM rs1
  | consB rs1 => exact Fields.consB rs1
  | mulN rd rs1 rs2 => exact Fields.mulN rd rs1 rs2
  | mulM rd rs1 rs2 => exact Fields.mulM rd rs1 rs2
  | mulB rd rs1 rs2 => exact Fields.mulB rd rs1 rs2
  | dinN rd rs1 => exact Fields.dinN rd rs1
  | dinM rd rs1 => exact Fields.dinM rd rs1
  | dinB rd rs1 => exact Fields.dinB rd rs1
  | doutN rd rs1 => exact Fields.doutN rd rs1
  | doutM rd rs1 => exact Fields.doutM rd rs1
  | doutB rd rs1 => exact Fields.doutB rd rs1
  | redM rd rs1 => exact Fields.redM rd rs1
  | redB rd rs1 => exact Fields.redB rd rs1
  | inv rd rs1 rs2 => exact Fields.inv rd rs1 rs2
  | clrerr => exact Fields.clrerr

/-- A field that holds a command's number of it holds the register the command names there, or 0. -/
theorem eq_getD_of_val_eq_fieldNumber {f : Reg} {o : Option Reg} (h : f.val = fieldNumber o) : f = o.getD 0 := by
  cases o <;> exact Fin.ext h

/-! ## The masks of the table, as the fields they compare -/

/-- R95: the mask of `CONS.e` compares every field but `RS1`. -/
theorem and_consMask_eq_iff {opc : Nat} (hopc : opc < 2 ^ 8) (w : Word) : w &&& 0xFFFFC7FF#32 = BitVec.ofNat 32 opc ↔
    fieldOpc w = opc ∧ fieldRsv w = 0 ∧ fieldRd w = 0 ∧ fieldRs2 w = 0 := by
  rw [← BitVec.toNat_inj, and_consMask, BitVec.toNat_ofNat]
  simp only [fieldOpc, fieldRd, fieldRs2, fieldRsv, Fin.ext_iff, Fin.ofNat, Fin.val_zero]
  omega

/-- R95: the mask of `DIN.e`, `DOUT.e` and `RED.e` compares every field but `RD` and `RS1`. -/
theorem and_unaryMask_eq_iff {opc : Nat} (hopc : opc < 2 ^ 8) (w : Word) : w &&& 0xFFFFC0FF#32 = BitVec.ofNat 32 opc ↔
    fieldOpc w = opc ∧ fieldRsv w = 0 ∧ fieldRs2 w = 0 := by
  rw [← BitVec.toNat_inj, and_unaryMask, BitVec.toNat_ofNat]
  simp only [fieldOpc, fieldRs2, fieldRsv, Fin.ext_iff, Fin.ofNat, Fin.val_zero]
  omega

/-- R95: the mask of `MUL.e` and `INV` compares `OPC` and `RSV`. -/
theorem and_binaryMask_eq_iff {opc : Nat} (hopc : opc < 2 ^ 8) (w : Word) :
    w &&& 0xFFFE00FF#32 = BitVec.ofNat 32 opc ↔ fieldOpc w = opc ∧ fieldRsv w = 0 := by
  rw [← BitVec.toNat_inj, and_binaryMask, BitVec.toNat_ofNat]
  simp only [fieldOpc, fieldRsv]
  omega

/-- R95: the mask of `CLRERR` compares every field. -/
theorem and_fullMask_eq_iff {opc : Nat} (hopc : opc < 2 ^ 8) (w : Word) : w &&& 0xFFFFFFFF#32 = BitVec.ofNat 32 opc ↔
    fieldOpc w = opc ∧ fieldRsv w = 0 ∧ fieldRd w = 0 ∧ fieldRs1 w = 0 ∧ fieldRs2 w = 0 := by
  rw [show 0xFFFFFFFF#32 = BitVec.allOnes 32 from rfl, BitVec.and_allOnes, ← BitVec.toNat_inj, BitVec.toNat_ofNat]
  simp only [fieldOpc, fieldRd, fieldRs1, fieldRs2, fieldRsv, Fin.ext_iff, Fin.ofNat, Fin.val_zero]
  omega

/-- R95, R97: `RSV` and every field of `w` outside the fields `use` (`RD`, `RS1`, `RS2`) are 0. -/
def UnusedFieldsZero (w : Word) : Bool × Bool × Bool → Prop
  | (useRd, useRs1, useRs2) => fieldRsv w = 0 ∧ (useRd = true ∨ fieldRd w = 0) ∧ (useRs1 = true ∨ fieldRs1 w = 0) ∧
      (useRs2 = true ∨ fieldRs2 w = 0)

/-- R97: a word is legal exactly when its opcode is listed, `RSV` is 0 and every unused field is 0. -/
theorem legalWord_iff {w : Word} :
    legalWord w = true ↔ ∃ use, fieldUse (fieldOpc w) = some use ∧ UnusedFieldsZero w use := by
  rw [legalWord, show w.toNat % 2 ^ 8 = fieldOpc w from rfl]
  cases fieldUse (fieldOpc w) <;>
    simp [UnusedFieldsZero, fieldRd, fieldRs1, fieldRs2, fieldRsv, Fin.ext_iff, and_assoc]

/-! ## The rows of the table -/

/-- R95, R97: a row selects the legal words of its opcode. -/
def SelectsLegalWords (r : OpRow) : Prop :=
  ∀ w : Word, rowSelected w r = true ↔ fieldOpc w = r.pattern.toNat ∧ legalWord w = true

section

variable (opc : Fin 256) (build : Reg → Reg → Reg → Instr)

/-- A row whose mask compares the fields that its opcode leaves unused selects the legal words of its opcode. -/
theorem selectsLegalWords_of_mask {mask : Word} {use : Bool × Bool × Bool} (huse : fieldUse opc = some use)
    (hmask : ∀ w : Word, w &&& mask = BitVec.ofNat 32 opc ↔ fieldOpc w = opc ∧ UnusedFieldsZero w use) :
    SelectsLegalWords ⟨BitVec.ofNat 32 opc, mask, build⟩ := by
  intro w
  have hopc : (BitVec.ofNat 32 opc.val).toNat = opc.val := Nat.mod_eq_of_lt (by omega)
  rw [rowSelected, decide_eq_true_iff, hmask, hopc]
  refine and_congr_right fun h => ?_
  simp [legalWord_iff, h, huse]

theorem consRow_selectsLegalWords (huse : fieldUse opc = some (false, true, false)) :
    SelectsLegalWords ⟨BitVec.ofNat 32 opc, 0xFFFFC7FF, build⟩ :=
  selectsLegalWords_of_mask opc build huse fun w => by simpa [UnusedFieldsZero] using and_consMask_eq_iff opc.isLt w

theorem unaryRow_selectsLegalWords (huse : fieldUse opc = some (true, true, false)) :
    SelectsLegalWords ⟨BitVec.ofNat 32 opc, 0xFFFFC0FF, build⟩ :=
  selectsLegalWords_of_mask opc build huse fun w => by simpa [UnusedFieldsZero] using and_unaryMask_eq_iff opc.isLt w

theorem binaryRow_selectsLegalWords (huse : fieldUse opc = some (true, true, true)) :
    SelectsLegalWords ⟨BitVec.ofNat 32 opc, 0xFFFE00FF, build⟩ :=
  selectsLegalWords_of_mask opc build huse fun w => by simpa [UnusedFieldsZero] using and_binaryMask_eq_iff opc.isLt w

theorem fullRow_selectsLegalWords (huse : fieldUse opc = some (false, false, false)) :
    SelectsLegalWords ⟨BitVec.ofNat 32 opc, 0xFFFFFFFF, build⟩ :=
  selectsLegalWords_of_mask opc build huse fun w => by simpa [UnusedFieldsZero] using and_fullMask_eq_iff opc.isLt w

end

/-- R94, R95: every row of the table selects the legal words of its opcode. -/
theorem opRows_selectLegalWords : ∀ r ∈ opRows, SelectsLegalWords r := by
  simp only [opRows, List.forall_mem_cons]
  exact ⟨consRow_selectsLegalWords 0x05 _ rfl, consRow_selectsLegalWords 0x06 _ rfl,
    consRow_selectsLegalWords 0x07 _ rfl, binaryRow_selectsLegalWords 0x09 _ rfl,
    binaryRow_selectsLegalWords 0x0A _ rfl, binaryRow_selectsLegalWords 0x0B _ rfl,
    unaryRow_selectsLegalWords 0x0D _ rfl, unaryRow_selectsLegalWords 0x0E _ rfl,
    unaryRow_selectsLegalWords 0x0F _ rfl, unaryRow_selectsLegalWords 0x11 _ rfl,
    unaryRow_selectsLegalWords 0x12 _ rfl, unaryRow_selectsLegalWords 0x13 _ rfl,
    unaryRow_selectsLegalWords 0x16 _ rfl, unaryRow_selectsLegalWords 0x17 _ rfl,
    binaryRow_selectsLegalWords 0x18 _ rfl, fullRow_selectsLegalWords 0x1C _ rfl, nofun⟩

/-- R94: no two rows of the table have the same opcode. -/
theorem opRows_patterns_nodup : (opRows.map OpRow.pattern).Nodup := by decide

/-- R94, R97: a row of the table stands for every opcode that is listed. -/
theorem exists_row_of_fieldUse {opc : Nat} {use : Bool × Bool × Bool} (h : fieldUse opc = some use) :
    ∃ r ∈ opRows, r.pattern.toNat = opc := by
  have hlisted : opc ∈ opRows.map fun r => r.pattern.toNat := by
    unfold fieldUse at h
    split_ifs at h <;> simp only [opRows, List.map_cons, List.mem_cons, BitVec.reduceToNat] <;> omega
  exact List.mem_map.mp hlisted

/-- R95: two rows that select the same word are one row. -/
theorem row_eq_of_selected {r r' : OpRow} {w : Word} (hr : r ∈ opRows) (hr' : r' ∈ opRows)
    (h : rowSelected w r = true) (h' : rowSelected w r' = true) : r = r' := by
  obtain ⟨hopc, -⟩ := (opRows_selectLegalWords r hr w).mp h
  obtain ⟨hopc', -⟩ := (opRows_selectLegalWords r' hr' w).mp h'
  exact List.inj_on_of_nodup_map opRows_patterns_nodup hr hr' (BitVec.eq_of_toNat_eq (hopc.symm.trans hopc'))

/-- R96, R97: the legal words are those that select a row. -/
theorem legalWord_iff_exists_row (w : Word) : legalWord w = true ↔ ∃ r ∈ opRows, rowSelected w r = true := by
  constructor
  · intro h
    obtain ⟨_, huse, -⟩ := legalWord_iff.mp h
    obtain ⟨r, hr, hopc⟩ := exists_row_of_fieldUse huse
    exact ⟨r, hr, (opRows_selectLegalWords r hr w).mpr ⟨hopc.symm, h⟩⟩
  · rintro ⟨r, hr, hsel⟩
    exact ((opRows_selectLegalWords r hr w).mp hsel).2

/-! ## The commands the rows build -/

/-- R94, R95: the command a row builds has the row's opcode and names the row's registers in the fields it uses. -/
theorem fields_build : ∀ r ∈ opRows, ∀ rd rs1 rs2 : Reg, opcodeOf (r.build rd rs1 rs2) = r.pattern.toNat ∧
    (rdOf (r.build rd rs1 rs2)).getD rd = rd ∧ (rs1Of (r.build rd rs1 rs2)).getD rs1 = rs1 ∧
    (rs2Of (r.build rd rs1 rs2)).getD rs2 = rs2 := by
  simp [opRows, opcodeOf, rdOf, rs1Of, rs2Of]

/-- R94: every command is built by the row of its opcode, from its own registers. -/
theorem exists_row_of_command (i : Instr) : ∃ r ∈ opRows, r.pattern.toNat = opcodeOf i ∧
    r.build ((rdOf i).getD 0) ((rs1Of i).getD 0) ((rs2Of i).getD 0) = i := by
  cases i <;> simp [opRows, opcodeOf, rdOf, rs1Of, rs2Of]

/-- R95: the fields that R95 lists for a command's opcode are those in which the command names a register. -/
theorem fieldUse_opcodeOf (i : Instr) :
    fieldUse (opcodeOf i) = some ((rdOf i).isSome, (rs1Of i).isSome, (rs2Of i).isSome) := by
  cases i <;> rfl

/-- A field that a command names, or else is 0, is the command's number of it. -/
theorem val_eq_fieldNumber {f : Reg} {o : Option Reg} (hnamed : o.getD f = f) (hunused : o.isSome = true ∨ f = 0) :
    f.val = fieldNumber o := by
  cases o with
  | none => simpa [fieldNumber] using hunused
  | some r => exact congrArg Fin.val hnamed.symm

/-- R95, R100: a word that selects a row is the word of the command the row builds from its fields. -/
theorem encode_build {w : Word} {r : OpRow} (hr : r ∈ opRows) (h : rowSelected w r = true) :
    encode (r.build (fieldRd w) (fieldRs1 w) (fieldRs2 w)) = w := by
  obtain ⟨hopc, hlegal⟩ := (opRows_selectLegalWords r hr w).mp h
  obtain ⟨hbuild, hrd, hrs1, hrs2⟩ := fields_build r hr (fieldRd w) (fieldRs1 w) (fieldRs2 w)
  generalize r.build (fieldRd w) (fieldRs1 w) (fieldRs2 w) = i at *
  obtain ⟨use, huse, hzero⟩ := legalWord_iff.mp hlegal
  rw [hopc, ← hbuild, fieldUse_opcodeOf, Option.some_inj] at huse
  subst huse
  obtain ⟨hrsv, hrd0, hrs10, hrs20⟩ := hzero
  obtain ⟨iopc, ird, irs1, irs2, irsv⟩ := fields_encode i
  exact eq_of_fields_eq (iopc.trans (hbuild.trans hopc.symm)) (ird.trans (val_eq_fieldNumber hrd hrd0).symm)
    (irs1.trans (val_eq_fieldNumber hrs1 hrs10).symm) (irs2.trans (val_eq_fieldNumber hrs2 hrs20).symm)
    (irsv.trans hrsv.symm)

/-- R97, R100: the word of a command is legal. -/
theorem legalWord_encode (i : Instr) : legalWord (encode i) = true := by
  have hfield {f : Reg} {o : Option Reg} (h : f.val = fieldNumber o) : o.isSome = true ∨ f = 0 := by
    cases o with
    | none => exact .inr (Fin.ext h)
    | some r => exact .inl rfl
  obtain ⟨hopc, hrd, hrs1, hrs2, hrsv⟩ := fields_encode i
  exact legalWord_iff.mpr ⟨_, hopc ▸ fieldUse_opcodeOf i, hrsv, hfield hrd, hfield hrs1, hfield hrs2⟩

/-- R95, R100: the word of a command selects the row of its opcode, which builds the command from the word's fields. -/
theorem exists_row_selected_by_encode (i : Instr) : ∃ r ∈ opRows, rowSelected (encode i) r = true ∧
    r.pattern.toNat = opcodeOf i ∧
    r.build (fieldRd (encode i)) (fieldRs1 (encode i)) (fieldRs2 (encode i)) = i := by
  obtain ⟨hopc, hrd, hrs1, hrs2, -⟩ := fields_encode i
  obtain ⟨r, hr, hpat, hbuild⟩ := exists_row_of_command i
  refine ⟨r, hr, (opRows_selectLegalWords r hr _).mpr ⟨hopc.trans hpat.symm, legalWord_encode i⟩, hpat, ?_⟩
  rwa [eq_getD_of_val_eq_fieldNumber hrd, eq_getD_of_val_eq_fieldNumber hrs1, eq_getD_of_val_eq_fieldNumber hrs2]

/-! ## The decoder -/

/-- R96: a word that selects a row decodes to the command the row builds from its fields. -/
theorem decode_of_selected {w : Word} {r : OpRow} (hr : r ∈ opRows) (h : rowSelected w r = true) :
    decode w = some (r.build (fieldRd w) (fieldRs1 w) (fieldRs2 w)) := by
  obtain ⟨r', hfind⟩ := Option.isSome_iff_exists.mp (List.find?_isSome.mpr ⟨r, hr, h⟩)
  have heq : r' = r := row_eq_of_selected (List.mem_of_find?_eq_some hfind) hr (List.find?_some hfind) h
  rw [decode, hfind, heq, Option.map_some]

/-- R96, R97: the illegal words are those that do not decode. -/
theorem decode_eq_none_iff (w : Word) : decode w = none ↔ legalWord w = false := by
  rw [← Bool.not_eq_true, legalWord_iff_exists_row, decode, Option.map_eq_none_iff, List.find?_eq_none]
  push Not
  rfl

/-- R95, R96, R100: a word decodes to a command exactly when it is the command's word. -/
theorem decode_eq_some_iff (w : Word) (i : Instr) : decode w = some i ↔ encode i = w := by
  constructor
  · intro h
    obtain ⟨r, hfind, rfl⟩ := Option.map_eq_some_iff.mp h
    exact encode_build (List.mem_of_find?_eq_some hfind) (List.find?_some hfind)
  · rintro rfl
    obtain ⟨r, hr, hsel, -, hbuild⟩ := exists_row_selected_by_encode i
    rw [decode_of_selected hr hsel, hbuild]

end Sys2Proof.Laws
end

section
/-! The encoding of the commands (O1 to O5). -/

namespace Sys2Proof.Certificates

open Sys2Proof.Machine Sys2Proof.Laws

/-- Settles O1: a word decodes to the command whose word it is. -/
theorem decodeInvertsEncode : Obligations.DecodeInvertsEncode := fun i => (decode_eq_some_iff _ i).mpr rfl

/-- Settles O2: a word decodes only to the command whose word it is. -/
theorem encodeInvertsDecode : Obligations.EncodeInvertsDecode := fun w i => (decode_eq_some_iff w i).mp

/-- Settles O3: the words that select no row are the illegal ones, and the command cycle raises on
them. -/
theorem illegalWordsRaise : Obligations.IllegalWordsRaise := by
  intro w
  refine ⟨decode_eq_none_iff w, fun hillegal s herr => ?_⟩
  rw [issue, herr, if_neg Bool.false_ne_true, (decode_eq_none_iff w).mpr hillegal]
  rfl

/-- Settles O4: a second row that selected the word would have the first one's opcode. -/
theorem atMostOneRowSelected : Obligations.AtMostOneRowSelected := by
  refine ⟨fun w => ?_, fun i => ?_⟩
  · have hnodup : (opRows.filter (rowSelected w)).Nodup := (List.Nodup.of_map _ opRows_patterns_nodup).filter _
    have hone : ∀ r ∈ opRows.filter (rowSelected w), ∀ r' ∈ opRows.filter (rowSelected w), r = r' := by
      intro r hr r' hr'
      obtain ⟨hmem, hsel⟩ := List.mem_filter.mp hr
      obtain ⟨hmem', hsel'⟩ := List.mem_filter.mp hr'
      exact row_eq_of_selected hmem hmem' hsel hsel'
    match hl : opRows.filter (rowSelected w) with
    | [] | [_] => simp
    | r :: r' :: l =>
      have heq : r = r' := hone r (by simp [hl]) r' (by simp [hl])
      simp [hl, heq] at hnodup
  · obtain ⟨r, hr, hsel, hpat, -⟩ := exists_row_selected_by_encode i
    exact ⟨r, hr, hsel, hpat⟩

/-- Settles O5: each of the words is its command's. -/
theorem specWordsDecode : Obligations.SpecWordsDecode := by
  unfold Obligations.SpecWordsDecode
  simp only [decode_eq_some_iff]
  decide

end Sys2Proof.Certificates
end

section
/-! SUPPORT. How the assembler takes a line apart (R101): a word of plain characters is one token, the operands of a command
become their registers again, and what follows them as a comment is no token. -/

namespace Sys2Proof.Laws

open Sys2Proof.Machine

/-- A character that is part of a word: it ends no word and starts no comment (R101). -/
def AsmPlain (c : Char) : Prop := c ≠ '#' ∧ c ≠ ' ' ∧ c ≠ '\t' ∧ c ≠ ','

/-- What follows a command on its line without adding a token. -/
def AsmEnds (tail : List Char) : Prop := ∀ cur, asmLex tail cur = asmFlush cur

theorem asmEnds_nil : AsmEnds [] := fun _ => rfl

/-- R101: a comment runs to the end of the line. -/
theorem asmEnds_comment (comment : List Char) : AsmEnds ('#' :: comment) := fun _ => rfl

/-- The characters of a word are gathered. -/
theorem asmLex_append {cs : List Char} (hcs : ∀ c ∈ cs, AsmPlain c) (rest cur : List Char) :
    asmLex (cs ++ rest) cur = asmLex rest (cs.reverse ++ cur) := by
  induction cs generalizing cur with
  | nil => rfl
  | cons c cs ih =>
    obtain ⟨⟨hhash, hspace, htab, hcomma⟩, hrest⟩ := List.forall_mem_cons.mp hcs
    simp [asmLex, hhash, hspace, htab, hcomma, ih hrest]

section

variable {cs : List Char} (hcs : ∀ c ∈ cs, AsmPlain c) (hne : cs ≠ [])

include hcs hne

/-- A word at the end of a line is its last token. -/
theorem asmLex_word_end {tail : List Char} (htail : AsmEnds tail) : asmLex (cs ++ tail) [] = [.word cs] := by
  rw [asmLex_append hcs, htail]
  simp [asmFlush, hne]

/-- A space ends a word. -/
theorem asmLex_word_space (rest : List Char) : asmLex (cs ++ ' ' :: rest) [] = .word cs :: asmLex rest [] := by
  rw [asmLex_append hcs]
  simp [asmLex, asmFlush, hne]

/-- A comma ends a word and is a token; a space after it is none. -/
theorem asmLex_word_comma (rest : List Char) :
    asmLex (cs ++ ',' :: ' ' :: rest) [] = .word cs :: .comma :: asmLex rest [] := by
  rw [asmLex_append hcs]
  simp [asmLex, asmFlush, hne]

end

/-- The registers of a command line as tokens, separated by commas (R101). -/
def asmOperandTokens : List Reg → List AsmToken
  | [] => []
  | [r] => [.word (asmRegText r)]
  | r :: rs => .word (asmRegText r) :: .comma :: asmOperandTokens rs

theorem asmRegText_ne_nil (r : Reg) : asmRegText r ≠ [] := List.cons_ne_nil _ _

/-- R101: an `x` and a digit are plain characters. -/
theorem asmRegText_plain (r : Reg) : ∀ c ∈ asmRegText r, AsmPlain c := by
  have hx : AsmPlain 'x' := by
    unfold AsmPlain
    decide
  have hdigit : ∀ r : Reg, AsmPlain (Char.ofNat (48 + r.val)) := by
    unfold AsmPlain
    decide
  exact List.forall_mem_cons.mpr ⟨hx, List.forall_mem_singleton.mpr (hdigit r)⟩

theorem asmMnemonic_plain (i : Instr) : ∀ c ∈ asmMnemonic i, AsmPlain c := by
  cases i <;> simp [asmMnemonic, AsmPlain]

theorem asmMnemonic_ne_nil (i : Instr) : asmMnemonic i ≠ [] := by
  cases i <;> exact List.cons_ne_nil _ _

/-- R101: a register's name is read back. -/
theorem asmReg_asmRegText : ∀ r : Reg, asmReg (asmRegText r) = some r := by decide

/-- R101: the written operands are lexed as their tokens. -/
theorem asmLex_asmOperandText {tail : List Char} (htail : AsmEnds tail) (rs : List Reg) :
    asmLex (asmOperandText rs ++ tail) [] = asmOperandTokens rs := by
  induction rs using asmOperandText.induct with
  | case1 => exact htail []
  | case2 r => exact asmLex_word_end (asmRegText_plain r) (asmRegText_ne_nil r) htail
  | case3 r rs hne ih =>
    rw [asmOperandText.eq_3 _ _ hne, asmOperandTokens.eq_3 _ _ hne, ← ih, List.append_assoc, List.append_assoc]
    exact asmLex_word_comma (asmRegText_plain r) (asmRegText_ne_nil r) _

/-- R101: the tokens of operands are read as their registers. -/
theorem asmOperands_asmOperandTokens (rs : List Reg) : asmOperands (asmOperandTokens rs) = some rs := by
  induction rs with
  | nil => rfl
  | cons r rs ih =>
    cases rs with
    | nil => simp [asmOperandTokens, asmOperands, asmReg_asmRegText]
    | cons q qs => simp [asmOperandTokens, asmOperands, asmReg_asmRegText, ih]

/-- R101: the line of a command is lexed as its mnemonic and its operands. -/
theorem asmLex_asmText (i : Instr) {tail : List Char} (htail : AsmEnds tail) :
    asmLex (asmText i ++ tail) [] = .word (asmMnemonic i) :: asmOperandTokens (asmFields i) := by
  unfold asmText
  split
  · next hnone =>
    rw [hnone]
    exact asmLex_word_end (asmMnemonic_plain i) (asmMnemonic_ne_nil i) htail
  · rw [← asmLex_asmOperandText htail, List.append_assoc, List.append_assoc]
    exact asmLex_word_space (asmMnemonic_plain i) (asmMnemonic_ne_nil i) _

/-- R94, R101: a mnemonic and the number of its operands tell the command. -/
theorem find?_asmCandidates (i : Instr) :
    (asmCandidates (asmFields i)).find? (fun j => decide (asmMnemonic j = asmMnemonic i)) = some i := by
  cases i <;> rfl

/-- R101: the line of a command is read as that command, whatever follows it without adding a token. -/
theorem asmParse_asmText (i : Instr) {tail : List Char} (htail : AsmEnds tail) :
    asmParse (asmText i ++ tail) = some i := by
  simp only [asmParse, asmLex_asmText i htail, asmOperands_asmOperandTokens, find?_asmCandidates]

end Sys2Proof.Laws

namespace Sys2Proof.Certificates

open Sys2Proof.Machine Sys2Proof.Laws

/-- Settles O59: neither the end of the line nor a comment adds a token to the command's. -/
theorem assemblerReadsItsOwnLines : Obligations.AssemblerReadsItsOwnLines := by
  intro i comment
  have hbare := asmParse_asmText i asmEnds_nil
  rw [List.append_nil] at hbare
  exact ⟨hbare, asmParse_asmText i (asmEnds_comment comment)⟩

end Sys2Proof.Certificates
end

section
/-! SUPPORT. Runs of several steps, and the bus accesses of the host's pseudo-instructions (R102): what each of them does, and
how the words of a wide register make up its value (R67). -/

namespace Sys2Proof.Machine

/-- Steps that lead from each state of a row to the next one lead from its first state to its last. -/
theorem runSteps_of_step (f : Nat → State) (n : Nat) (h : ∀ k < n, step (f k) = .next (f (k + 1))) :
    runSteps n (f 0) = .next (f n) := by
  induction n generalizing f with
  | zero => rfl
  | succ n ih =>
    simp only [runSteps, h 0 (Nat.succ_pos n)]
    exact ih (fun k => f (k + 1)) fun k hk => h (k + 1) (by omega)

/-- A step takes the first event of the inbox and performs it. -/
theorem step_of_inbox {s : State} {e : HostEvent} {rest : List HostEvent} (h : s.inbox = e :: rest) :
    step s = performEvent e { s with inbox := rest } := by
  simp only [step, performNext, h]

/-- The machine after `k` of `n` events `ev`: the block as `block k` says, the other events and then `rest` still to come,
and one response for each event performed. -/
def State.afterEvents (s : State) (n : Nat) (ev : Nat → HostEvent) (rest : List HostEvent) (block : Nat → State)
    (answer : Nat → Response) (k : Nat) : State :=
  { block k with
    inbox := ((List.range n).map ev).drop k ++ rest
    log := s.log ++ (List.range k).map answer }

/-- Events that are performed one after the other on the block, each with its response. -/
theorem runSteps_of_performEvent {s : State} {n : Nat} {ev : Nat → HostEvent} {rest : List HostEvent}
    {block : Nat → State} {answer : Nat → Response} (hin : s.inbox = (List.range n).map ev ++ rest)
    (hblock : block 0 = s)
    (hev : ∀ k < n, ∀ l m, performEvent (ev k) { block k with inbox := l, log := m } =
      .next (State.respond { block (k + 1) with inbox := l, log := m } (answer k))) :
    runSteps n s = .next { block n with inbox := rest, log := s.log ++ (List.range n).map answer } := by
  have hfirst : s.afterEvents n ev rest block answer 0 = s := by
    simp [State.afterEvents, hblock, ← hin]
  have hlast : s.afterEvents n ev rest block answer n =
      { block n with inbox := rest, log := s.log ++ (List.range n).map answer } := by
    simp [State.afterEvents]
  have hrun := runSteps_of_step (s.afterEvents n ev rest block answer) n fun k hk => by
    have hnext : (s.afterEvents n ev rest block answer k).inbox =
        ev k :: (((List.range n).map ev).drop (k + 1) ++ rest) := by
      rw [State.afterEvents, List.drop_eq_getElem_cons (by simpa using hk)]
      simp
    rw [step_of_inbox hnext]
    refine (hev k hk _ _).trans ?_
    simp [State.afterEvents, State.respond, List.range_succ]
  rwa [hfirst, hlast] at hrun

/-! ## The words of a wide register -/

/-- R102: the words of a value, lowest first, assemble to its low bits. -/
theorem assembleWords_wordOf (v n : Nat) : assembleWords ((List.range n).map (wordOf v)) = v % 2 ^ (32 * n) := by
  induction n generalizing v with
  | zero => simp [assembleWords, Nat.mod_one]
  | succ n ih =>
    have hnext : wordOf v ∘ Nat.succ = wordOf (v / 2 ^ 32) := by
      funext j
      apply BitVec.eq_of_toNat_eq
      rw [Function.comp_apply, wordOf_toNat, wordOf_toNat, Nat.div_div_eq_div_mul, ← pow_add, Nat.mul_succ,
        Nat.add_comm 32]
    rw [List.range_succ_eq_map, List.map_cons, List.map_map, hnext, assembleWords, ih, wordOf_toNat, Nat.mul_succ,
      Nat.add_comm (32 * n), pow_add, Nat.mod_mul, Nat.mul_zero, pow_zero, Nat.div_one]

/-- The value of a wide register after the lowest `k` words of `v` were written over `old`. -/
def loadedWords (old v k : Nat) : Nat := old / 2 ^ (32 * k) * 2 ^ (32 * k) + v % 2 ^ (32 * k)

@[simp] theorem loadedWords_zero (old v : Nat) : loadedWords old v 0 = old := by
  simp [loadedWords, Nat.mod_one]

/-- R67: the next word written. -/
theorem replaceWord_loadedWords (old v k : Nat) :
    replaceWord (loadedWords old v k) k (wordOf v k) = loadedWords old v (k + 1) := by
  have hlow : v % 2 ^ (32 * k) < 2 ^ (32 * k) := Nat.mod_lt _ (by positivity)
  have hsucc : 2 ^ (32 * (k + 1)) = 2 ^ (32 * k) * 2 ^ 32 := by rw [← pow_add, Nat.mul_succ]
  have hmod : loadedWords old v k % 2 ^ (32 * k) = v % 2 ^ (32 * k) := by
    rw [loadedWords, Nat.mul_comm, Nat.mul_add_mod, Nat.mod_mod]
  have hdiv : loadedWords old v k / 2 ^ (32 * (k + 1)) = old / 2 ^ (32 * (k + 1)) := by
    rw [loadedWords, hsucc, ← Nat.div_div_eq_div_mul, ← Nat.div_div_eq_div_mul, Nat.mul_comm,
      Nat.mul_add_div (by positivity), Nat.div_eq_of_lt hlow, Nat.add_zero]
  rw [replaceWord_eq, ← Nat.mul_succ, hdiv, hmod, wordOf_toNat, loadedWords, hsucc, Nat.mod_mul]
  ring

/-- R67: with all words written the old value is gone. -/
theorem loadedWords_of_lt {old v n : Nat} (hold : old < 2 ^ (32 * n)) (hv : v < 2 ^ (32 * n)) :
    loadedWords old v n = v := by
  rw [loadedWords, Nat.div_eq_of_lt hold, Nat.mod_eq_of_lt hv]
  omega

/-! ## The widths of the context registers -/

/-- R181: the reciprocal of a valid Barrett context has at most two bits more than the modulus. -/
theorem BarrettCtx.Valid.bmu_le {mw : Nat} {c : BarrettCtx} (hc : c.Valid mw) : c.bmu ≤ 2 ^ (c.bk + 1) := by
  have hlow : 2 ^ (c.bk - 1) ≤ c.bn := hc.k ▸ two_pow_le_of_pos hc.positive
  have hpos : 0 < c.bk := hc.k ▸ bitlength_pos hc.positive
  rw [hc.reciprocal]
  refine Nat.div_le_of_le_mul ?_
  calc 2 ^ (2 * c.bk) = 2 ^ (c.bk - 1) * 2 ^ (c.bk + 1) := by rw [← pow_add]; congr 1; omega
    _ ≤ c.bn * 2 ^ (c.bk + 1) := Nat.mul_le_mul_right _ hlow

/-- R25, R28, R29: the fields of a Montgomery context, valid or not, are within their widths. -/
theorem MontCtx.Ok.bounds {mw : Nat} {c : MontCtx} (h : c.Ok mw) :
    c.mn < 2 ^ mw ∧ c.mk ≤ mw ∧ c.mr ≤ 2 ^ mw ∧ c.mnp < 2 ^ mw := by
  cases hv : c.mv with
  | false =>
    obtain ⟨hmn, hmk, hmr, hmnp⟩ := h.invalid hv
    simp [hmn, hmk, hmr, hmnp]
  | true =>
    have hc := h.valid hv
    have hmk : c.mk ≤ mw := hc.k ▸ (bitlength_le_iff _ _).mpr hc.fits
    have hmr : c.mr ≤ 2 ^ mw := hc.radix ▸ Nat.pow_le_pow_right (by omega) hmk
    exact ⟨hc.fits, hmk, hmr, hc.below.trans_le hmr⟩

/-- R26, R28, R29: the fields of a Barrett context, valid or not, are within their widths. -/
theorem BarrettCtx.Ok.bounds {mw : Nat} {c : BarrettCtx} (h : c.Ok mw) :
    c.bn < 2 ^ mw ∧ c.bk ≤ mw ∧ c.bmu ≤ 2 ^ (mw + 1) := by
  cases hv : c.bv with
  | false =>
    obtain ⟨hbn, hbk, hbmu⟩ := h.invalid hv
    simp [hbn, hbk, hbmu]
  | true =>
    have hc := h.valid hv
    have hbk : c.bk ≤ mw := hc.k ▸ (bitlength_le_iff _ _).mpr hc.fits
    exact ⟨hc.fits, hbk, hc.bmu_le.trans (Nat.pow_le_pow_right (by omega) (by omega))⟩

/-- R24, R28, R29: the modulus of a naive context, valid or not, is within its width. -/
theorem NaiveCtx.Ok.nn_lt {mw : Nat} {c : NaiveCtx} (h : c.Ok mw) : c.nn < 2 ^ mw := by
  cases hv : c.nv with
  | false => simp [h.invalid hv]
  | true => exact (h.valid hv).2

end Sys2Proof.Machine

namespace Sys2Proof.Laws

open Sys2Proof.Machine

/-! ## Reading a wide register -/

/-- R102: reads of the words of a value in the window give the host these words and change nothing. -/
theorem runSteps_reads {s : State} {off n v : Nat} {rest : List HostEvent} (hp : s.phase = .running)
    (hoff : off + 4 * n ≤ 0x4000) (hread : ∀ j < n, busRead s (off + 4 * j) = some (wordOf v j))
    (hin : s.inbox = (List.range n).map (fun j => .read 32 (s.cfg.base + (off + 4 * j))) ++ rest) :
    runSteps n s = .next { s with
      inbox := rest
      log := s.log ++ ((List.range n).map (wordOf v)).map Response.data } := by
  rw [List.map_map]
  refine runSteps_of_performEvent (block := fun _ => s) hin rfl fun k hk l m => ?_
  have hword : busRead { s with inbox := l, log := m } (off + 4 * k) = some (wordOf v k) := hread k hk
  refine (performRead_of_running (s := { s with inbox := l, log := m }) hp (by omega) 32).trans ?_
  rw [if_pos rfl, hword]
  rfl

/-! ## The data registers -/

/-- R7, R66: the words of a data register are its whole width. -/
theorem mul_wx_eq_xlen {c : Config} (hc : c.legal = true) : 32 * wx c = xlen c := by
  have hmod := Config.mw_mod_of_legal hc
  unfold wx xlen
  omega

/-- R60, R66: the words of a data register are in the window. -/
theorem xOffset_add_le {c : Config} (hc : c.legal = true) (i : Reg) : xOffset i + 4 * wx c ≤ 0x4000 := by
  have hmw := Config.mw_le_of_legal hc
  unfold xOffset wx
  omega

/-- R66: where the words of a data register are. -/
theorem slotAt_xOffset {c : Config} (hc : c.legal = true) (i : Reg) {j : Nat} (hj : j < wx c) :
    slotAt c (xOffset i + 4 * j) = some (.x i j) :=
  (slotAt_eq_some_iff hc).mpr ⟨rfl, (lt_wx_iff hc j).mp hj⟩

/-- R67, R102: write `k` of LDX puts the next word of `v` over what the writes before it left of the old value. -/
theorem performEvent_ldx {s : State} (hc : s.cfg.legal = true) (hp : s.phase = .running) {i : Reg} {old v k : Nat}
    (hreg : s.readX i = loadedWords old v k) (hk : k < wx s.cfg) :
    performEvent (.write 32 (s.cfg.base + (xOffset i + 4 * k)) (bits v (32 * k + 31) (32 * k))) s =
      .next ((s.writeX i (loadedWords old v (k + 1))).respond .ok) := by
  have hoff := xOffset_add_le hc i
  refine (performWrite_of_running hp (by omega) 32 _).trans ?_
  rw [if_pos rfl, ← replaceWord_loadedWords, ← hreg]
  exact busWrite_of_slotAt_x _ (slotAt_xOffset hc i hk)

/-! ## The context registers -/

/-- The window's word `j` of a context register. -/
def ctxSlot : CtxReg → Nat → Slot
  | .mn, j => .mn j
  | .mr, j => .mr j
  | .mnp, j => .mnp j
  | .mk, _ => .mk
  | .bn, j => .bn j
  | .bmu, j => .bmu j
  | .bk, _ => .bk
  | .nn, j => .nn j

/-- R60, R66: the words of a context register are in the window. -/
theorem ctxOffset_add_le {c : Config} (hc : c.legal = true) (n : CtxReg) : ctxOffset n + 4 * ctxWords c n ≤ 0x4000 := by
  have hmw := Config.mw_le_of_legal hc
  cases n <;> simp only [ctxOffset, ctxWords, wc] <;> omega

/-- R66: where the words of a context register are. -/
theorem slotAt_ctxOffset {c : Config} (hc : c.legal = true) (n : CtxReg) {j : Nat} (hj : j < ctxWords c n) :
    slotAt c (ctxOffset n + 4 * j) = some (ctxSlot n j) := by
  rw [slotAt_eq_some_iff hc]
  cases n
  case mk | bk =>
    obtain rfl : j = 0 := Nat.lt_one_iff.mp hj
    exact ⟨rfl, trivial⟩
  all_goals exact ⟨rfl, (lt_wc_iff c j).mp hj⟩

/-- R67: a word of a context register. -/
theorem readSlot_ctxSlot (s : State) (n : CtxReg) {j : Nat} (hj : j < ctxWords s.cfg n) :
    readSlot s (ctxSlot n j) = some (wordOf (ctxValue s n) j) := by
  cases n
  case mk | bk =>
    obtain rfl : j = 0 := Nat.lt_one_iff.mp hj
    rfl
  all_goals rfl

/-- R66: a context register's words hold its value. -/
theorem ctxValue_lt {s : State} (h : s.Inv) (n : CtxReg) : ctxValue s n < 2 ^ (32 * ctxWords s.cfg n) := by
  obtain ⟨hmn, hmk, hmr, hmnp⟩ := h.mont.bounds
  obtain ⟨hbn, hbk, hbmu⟩ := h.barrett.bounds
  have hnn := h.naive.nn_lt
  have hmw := Config.mw_le_of_legal h.legal
  have hwide : 2 ^ s.cfg.mw * 2 ^ 2 ≤ 2 ^ (32 * wc s.cfg) := by
    rw [← pow_add]
    refine Nat.pow_le_pow_right (by omega) ?_
    unfold wc
    omega
  have hpos : 0 < 2 ^ s.cfg.mw := by positivity
  cases n <;> simp only [ctxValue, ctxWords]
  case mk | bk => omega
  all_goals omega

end Sys2Proof.Laws

namespace Sys2Proof.Certificates

open Sys2Proof.Machine Sys2Proof.Laws

/-- Settles O56: each write replaces one word of the register, and all its words are written. -/
theorem ldxLoadsRegister : Obligations.LdxLoadsRegister := by
  intro s i v rest h hp hv hin
  have hbits := mul_wx_eq_xlen h.legal
  have hloaded : loadedWords (s.readX i) v (wx s.cfg) = v := loadedWords_of_lt (hbits ▸ h.regs i) (hbits ▸ hv)
  have hrun := runSteps_of_performEvent (block := fun k => s.writeX i (loadedWords (s.readX i) v k))
    (answer := fun _ => .ok) hin (by simp) fun k hk l m => by
      refine (performEvent_ldx (s := { s.writeX i (loadedWords (s.readX i) v k) with inbox := l, log := m })
        h.legal hp (s.readX_writeX_same i _) hk).trans ?_
      simp [State.writeX]
  rw [hloaded] at hrun
  simpa [ldx, wx, State.writeX] using hrun

/-- Settles O57: each read gives one word of the register, and all its words are read. -/
theorem rdxReadsRegister : Obligations.RdxReadsRegister := by
  intro s i rest h hp hin
  have hread (j : Nat) (hj : j < wx s.cfg) : busRead s (xOffset i + 4 * j) = some (wordOf (s.readX i) j) :=
    busRead_of_slotAt (slotAt_xOffset h.legal i hj)
  have hrun := runSteps_reads hp (xOffset_add_le h.legal i) hread hin
  refine ⟨(List.range (wx s.cfg)).map (wordOf (s.readX i)), ?_, ?_, ?_⟩
  · simpa [rdx] using hrun
  · simp [wx]
  · rw [assembleWords_wordOf, mul_wx_eq_xlen h.legal, Nat.mod_eq_of_lt (h.regs i)]

/-- Settles O58: each read gives one word of the context register, and its words hold the whole value. -/
theorem rdctxReadsContextRegister : Obligations.RdctxReadsContextRegister := by
  intro s n rest h hp hin
  have hread (j : Nat) (hj : j < ctxWords s.cfg n) : busRead s (ctxOffset n + 4 * j) = some (wordOf (ctxValue s n) j) :=
    (busRead_of_slotAt (slotAt_ctxOffset h.legal n hj)).trans (readSlot_ctxSlot s n hj)
  have hrun := runSteps_reads hp (ctxOffset_add_le h.legal n) hread hin
  refine ⟨(List.range (ctxWords s.cfg n)).map (wordOf (ctxValue s n)), ?_, ?_⟩
  · simpa [rdctx] using hrun
  · rw [assembleWords_wordOf, Nat.mod_eq_of_lt (ctxValue_lt h n)]

end Sys2Proof.Certificates
end

section
/-! SUPPORT. What the engines' reductions compute with a valid context: `redc` the residue that `R` times is its operand
(R157), and `breduce` the remainder (R184). -/

namespace Sys2Proof.Machine

section

variable {mw : Nat} {c : MontCtx} (hc : c.Valid mw)

include hc

/-- R157: what REDC adds to `T` makes it a multiple of `R`, because `N * N_prime` is -1 modulo `R`. -/
theorem mr_dvd_redc_sum (T : Nat) : c.mr ∣ T + T % 2 ^ c.mk * c.mnp % c.mr * c.mn := by
  have hinv : c.mn * c.mnp + 1 ≡ 0 [MOD c.mr] := hc.negInverse
  have hm : T % 2 ^ c.mk * c.mnp % c.mr ≡ T * c.mnp [MOD c.mr] :=
    (Nat.mod_modEq _ _).trans (Nat.ModEq.mul_right _ (hc.radix ▸ Nat.mod_modEq _ _))
  refine (Nat.modEq_zero_iff_dvd).mp ?_
  calc T + T % 2 ^ c.mk * c.mnp % c.mr * c.mn
      ≡ T + T * c.mnp * c.mn [MOD c.mr] := (hm.mul_right _).add_left _
    _ = T * (c.mn * c.mnp + 1) := by ring
    _ ≡ T * 0 [MOD c.mr] := hinv.mul_left T

/-- R157: `R` times the result of `redc` is its operand modulo `N`. -/
theorem redc_mul_modEq (T : Nat) : (redc c T).1 * c.mr ≡ T [MOD c.mn] := by
  have hexact := Nat.div_mul_cancel (mr_dvd_redc_sum hc T)
  have hsub : (redc c T).1 ≡ (T + T % 2 ^ c.mk * c.mnp % c.mr * c.mn) / c.mr [MOD c.mn] := by
    rw [hc.radix, redc, ← hc.radix]
    split
    · next hle => exact (Nat.modEq_iff_dvd' (Nat.sub_le _ _)).mpr (by rw [Nat.sub_sub_self hle])
    · exact Nat.ModEq.refl _
  refine (hsub.mul_right _).trans ?_
  rw [hexact]
  exact Nat.add_mul_modulus_modEq_iff.mpr (Nat.ModEq.refl T)

/-- R155, R157: the result of `redc` is the only residue that `R` times is its operand modulo `N`. -/
theorem redc_eq_of_modEq {T v : Nat} (hT : T < c.mn * c.mr) (hv : v < c.mn) (h : v * c.mr ≡ T [MOD c.mn]) :
    (redc c T).1 = v :=
  (((redc_mul_modEq hc T).trans h.symm).cancel_right_of_coprime hc.coprime).eq_of_lt_of_lt (redc_lt hc hT) hv

end

/-- R184: the estimate is at most the quotient, because each of its floors rounds down. -/
theorem barrettEstimate_mul_le {mw : Nat} {c : BarrettCtx} (hc : c.Valid mw) (v : Nat) :
    barrettEstimate c v * c.bn ≤ v := by
  have hK : 0 < 2 ^ c.bk := by positivity
  have hmu : c.bmu * c.bn ≤ 2 ^ c.bk * 2 ^ c.bk := by
    rw [hc.reciprocal, ← pow_add, ← two_mul]
    exact Nat.div_mul_le_self _ _
  refine Nat.le_of_mul_le_mul_left ?_ hK
  calc 2 ^ c.bk * (barrettEstimate c v * c.bn)
      = barrettEstimate c v * 2 ^ c.bk * c.bn := by ring
    _ ≤ v / 2 ^ c.bk * c.bmu * c.bn := Nat.mul_le_mul_right _ (Nat.div_mul_le_self _ _)
    _ = v / 2 ^ c.bk * (c.bmu * c.bn) := by ring
    _ ≤ v / 2 ^ c.bk * (2 ^ c.bk * 2 ^ c.bk) := Nat.mul_le_mul_left _ hmu
    _ = v / 2 ^ c.bk * 2 ^ c.bk * 2 ^ c.bk := by ring
    _ ≤ v * 2 ^ c.bk := Nat.mul_le_mul_right _ (Nat.div_mul_le_self _ _)
    _ = 2 ^ c.bk * v := Nat.mul_comm _ _

/-- R184: `breduce` returns the remainder. -/
theorem breduce_fst {mw : Nat} {c : BarrettCtx} (hc : c.Valid mw) (v : Nat) : (breduce c v).1 = v % c.bn := by
  rw [breduce_eq hc, Nat.mul_comm]
  exact Nat.sub_mul_mod (Nat.mul_comm _ _ ▸ barrettEstimate_mul_le hc v)

end Sys2Proof.Machine
end

section
/-! SUPPORT. That a command answers a next state, and that a change of the state its rule does not see leaves its effect as it
was; what the command cycle does in each of its cases (R120). -/

namespace Sys2Proof.Laws

open Sys2Proof.Machine

section

variable {i : Instr} {s : State}

/-- A command answers a next state. -/
theorem exec_next (i : Instr) (s : State) : ∃ t, exec i s = .next t := by
  rcases exec_cases i s with ⟨e, o, -, h⟩ | ⟨-, h⟩ <;> exact ⟨_, h⟩

/-- R122: a command whose checks all hold commits. -/
theorem exec_commits (h : ∀ c ∈ checksOf i s, c.fails = false) : exec i s = .next (commitOf i s) :=
  (exec_eq_conclude i s).trans (conclude_commits i _ _ s h)

/-- A change `f` of the state that a command's checks do not see and its commit and its error carry along changes nothing else
of what the command does. -/
theorem exec_of_unseen {f : State → State}
    (hrule : checksOf i (f s) = checksOf i s ∧ commitOf i (f s) = f (commitOf i s))
    (hraise : ∀ w e o, (f s).raise w e o = f (s.raise w e o)) {t : State} (h : exec i s = .next t) :
    exec i (f s) = .next (f t) := by
  obtain ⟨hchecks, hcommit⟩ := hrule
  rw [exec_eq_conclude, hchecks, hcommit]
  rw [exec_eq_conclude] at h
  cases hfail : firstFailure (checksOf i s) with
  | some p =>
    simp only [conclude, hfail] at h ⊢
    cases h
    exact congrArg _ (hraise _ _ _)
  | none =>
    simp only [conclude, hfail] at h ⊢
    cases h
    rfl

/-- No command sees the host's events to come. -/
theorem exec_setInbox {t : State} (l : List HostEvent) (h : exec i s = .next t) :
    exec i { s with inbox := l } = .next { t with inbox := l } :=
  exec_of_unseen (f := fun u => { u with inbox := l }) (by cases i <;> exact ⟨rfl, rfl⟩) (fun _ _ _ => rfl) h

/-- R123: a command of another engine, or of none, does not see the naive context. -/
theorem exec_setNaive {t : State} (c : NaiveCtx) (hi : engineOf i ≠ some .naive) (h : exec i s = .next t) :
    exec i { s with naive := c } = .next { t with naive := c } := by
  refine exec_of_unseen (f := fun u => { u with naive := c }) ?_ (fun _ _ _ => rfl) h
  cases i
  case consN | mulN | dinN | doutN => simp [engineOf, opcodeOf] at hi
  all_goals exact ⟨rfl, rfl⟩

/-- R123: a command of another engine, or of none, does not see the Montgomery context. -/
theorem exec_setMont {t : State} (c : MontCtx) (hi : engineOf i ≠ some .montgomery) (h : exec i s = .next t) :
    exec i { s with mont := c } = .next { t with mont := c } := by
  refine exec_of_unseen (f := fun u => { u with mont := c }) ?_ (fun _ _ _ => rfl) h
  cases i
  case consM | mulM | dinM | doutM | redM => simp [engineOf, opcodeOf] at hi
  all_goals exact ⟨rfl, rfl⟩

/-- R123: a command of another engine, or of none, does not see the Barrett context. -/
theorem exec_setBarrett {t : State} (c : BarrettCtx) (hi : engineOf i ≠ some .barrett) (h : exec i s = .next t) :
    exec i { s with barrett := c } = .next { t with barrett := c } := by
  refine exec_of_unseen (f := fun u => { u with barrett := c }) ?_ (fun _ _ _ => rfl) h
  cases i
  case consB | mulB | dinB | doutB | redB => simp [engineOf, opcodeOf] at hi
  all_goals exact ⟨rfl, rfl⟩

end

section

variable {w : Word} {s : State}

/-- R215: the word of CLRERR in the error state. -/
theorem issue_clrerr_of_err (h : s.err = true) : issue 0x0000001C s = exec .clrerr s := by
  simp [issue, h]

/-- R235: another word in the error state. -/
theorem issue_of_err (h : s.err = true) (hw : w ≠ 0x0000001C) : issue w s = .next s.drop := by
  simp only [issue, h, if_true]
  exact if_neg hw

/-- R121: an illegal word outside the error state. -/
theorem issue_of_decode_none (h : s.err = false) (hd : decode w = none) :
    issue w s = .next (s.raise w .illegalCommand .none) := by
  simp [issue, h, hd]

/-- R120: a command's word outside the error state. -/
theorem issue_of_decode_some {i : Instr} (h : s.err = false) (hd : decode w = some i) : issue w s = exec i s := by
  simp [issue, h, hd]

end

/-- R66: `CMD`'s offset. -/
@[simp] theorem slotAt_cmd (c : Config) : slotAt c 0x0010 = some .cmd := rfl

/-- R64, R120: a write of `CMD` while the block runs is the command cycle of the word, and its response is OK. -/
theorem performEvent_write_cmd {s t : State} {w : Word} (hp : s.phase = .running) (ht : issue w s = .next t) :
    performEvent (.write 32 (s.cfg.base + 0x0010) w.toNat) s = .next (t.respond .ok) := by
  refine (performWrite_of_running hp (by omega) 32 _).trans ?_
  rw [if_pos rfl, BitVec.ofNat_toNat, BitVec.setWidth_eq]
  exact busWrite_of_slotAt_cmd w (slotAt_cmd s.cfg) ht

end Sys2Proof.Laws
end

section
/-! The command cycle of a step, and the contexts a command does not see (O39, O42). -/

namespace Sys2Proof.Certificates

open Sys2Proof.Machine Sys2Proof.Laws

/-- Settles O42: the step performs the write, and the command cycle has an equation for each of its cases. -/
theorem stepRunsDecodedCommand : Obligations.StepRunsDecodedCommand := by
  intro s w rest hp hin
  obtain ⟨t, ht⟩ := issue_next w { s with inbox := rest }
  refine ⟨t, ht, ?_, fun he hw => ?_, fun he hw => ?_, fun he hd => ?_, fun he i hd => ?_⟩
  · rw [step_of_inbox hin]
    exact performEvent_write_cmd (s := { s with inbox := rest }) hp ht
  · subst hw
    exact (issue_clrerr_of_err (s := { s with inbox := rest }) he).symm.trans ht
  · cases ht.symm.trans (issue_of_err he hw)
    rfl
  · cases ht.symm.trans (issue_of_decode_none he hd)
    rfl
  · exact (issue_of_decode_some (s := { s with inbox := rest }) he hd).symm.trans ht

/-- Settles O39: a command of another engine does not see the context, and only an engine's own CONS changes it. -/
theorem commandsIgnoreOtherContexts : Obligations.CommandsIgnoreOtherContexts := by
  intro i s cn cm cb
  obtain ⟨t, ht⟩ := exec_next i s
  obtain ⟨hnaive, hmont, hbarrett⟩ := contextsWrittenByOwnConsOnly.1 i s t ht
  refine ⟨fun hi => ⟨t, ht, exec_setNaive cn hi ht, ?_⟩, fun hi => ⟨t, ht, exec_setMont cm hi ht, ?_⟩,
    fun hi => ⟨t, ht, exec_setBarrett cb hi ht, ?_⟩⟩ <;> by_contra hne
  · obtain ⟨rs1, rfl⟩ := hnaive hne
    simp [engineOf, opcodeOf] at hi
  · obtain ⟨rs1, rfl⟩ := hmont hne
    simp [engineOf, opcodeOf] at hi
  · obtain ⟨rs1, rfl⟩ := hbarrett hne
    simp [engineOf, opcodeOf] at hi

end Sys2Proof.Certificates
end

section
/-! SUPPORT. The three engines seen as one (R123 to R125): the form a residue has inside an engine, and what DIN, MUL and DOUT
of an engine that holds a valid context do to it. -/

namespace Sys2Proof.Machine

/-- The engine `e` holds a valid context (R28) of the modulus `n`. -/
def State.Holds (s : State) (e : Engine) (n : Nat) : Prop := contextReady s e ∧ modulusOf s e = n

/-- What an engine with modulus `n` computes with for the residue `p`: the Montgomery form (R155), or the residue itself
(R190, R202). -/
def residueForm (e : Engine) (n p : Nat) : Nat :=
  match e with
  | .montgomery => p * 2 ^ bitlength n % n
  | .naive | .barrett => p

/-- R155: the form of a residue is below the modulus. -/
theorem residueForm_lt (e : Engine) {n p : Nat} (hp : p < n) : residueForm e n p < n := by
  cases e
  case montgomery => exact Nat.mod_lt _ (Nat.zero_lt_of_lt hp)
  all_goals exact hp

/-- `t` is `s` with `v` in `X[rd]` and perhaps with more responses given, in everything that a command of an engine outside
the error state reads. -/
structure State.Writes (s : State) (rd : Reg) (v : Nat) (t : State) : Prop where
  x : t.x = s.x.set rd.val v
  cfg : t.cfg = s.cfg
  naive : t.naive = s.naive
  mont : t.mont = s.mont
  barrett : t.barrett = s.barrett
  err : t.err = s.err
  phase : t.phase = s.phase
  log : s.log <+: t.log

namespace State.Writes

variable {s t : State} {rd : Reg} {v : Nat}

/-- Writing a data register is such a change. -/
theorem writeX (s : State) (rd : Reg) (v : Nat) : s.Writes rd v (s.writeX rd v) :=
  ⟨rfl, rfl, rfl, rfl, rfl, rfl, rfl, List.prefix_rfl⟩

/-- `FSUB` may be written too (R38). -/
theorem writeFsub (h : s.Writes rd v t) (f : Bool) : s.Writes rd v (t.writeFsub f) := { h with }

/-- `BCNT` may be written too (R39). -/
theorem writeBcnt (h : s.Writes rd v t) (c : Nat) : s.Writes rd v (t.writeBcnt c) := { h with }

/-- A response may be given too. -/
theorem respond (h : s.Writes rd v t) (r : Response) : s.Writes rd v (t.respond r) :=
  { h with log := h.log.trans (List.prefix_append _ _) }

variable (h : s.Writes rd v t)

include h

/-- The register written holds the value. -/
theorem readX_same : t.readX rd = v :=
  (State.readX_congr (s := s.writeX rd v) h.x rd).trans (s.readX_writeX_same rd v)

/-- Every other register holds what it held. -/
theorem readX_other {r : Reg} (hr : rd ≠ r) : t.readX r = s.readX r :=
  (State.readX_congr (s := s.writeX rd v) h.x r).trans (s.readX_writeX_other v hr)

/-- An engine's context stays. -/
theorem holds {e : Engine} {n : Nat} (hs : s.Holds e n) : t.Holds e n := by
  cases e <;> simpa only [State.Holds, contextReady, modulusOf, h.cfg, h.naive, h.mont, h.barrett] using hs

end State.Writes

/-- R155: the Montgomery form of a residue in the terms of a valid context. -/
theorem MontCtx.Valid.residueForm_eq {mw : Nat} {c : MontCtx} (hc : c.Valid mw) (p : Nat) :
    residueForm .montgomery c.mn p = p * c.mr % c.mn := by
  rw [hc.radix, hc.k]
  rfl

/-- R28, R157: the product of two residues is below `N * R`, as `redc` asks, since `N < R`. -/
theorem MontCtx.Valid.mul_lt {mw a b : Nat} {c : MontCtx} (hc : c.Valid mw) (ha : a < c.mn) (hb : b < c.mn) :
    a * b < c.mn * c.mr := by
  have hNR : c.mn < c.mr := hc.radix ▸ hc.k ▸ lt_two_pow_bitlength c.mn
  exact Nat.mul_lt_mul'' ha (hb.trans hNR)

/-- R162: `redc` of the product of two Montgomery forms is the form of the product. -/
theorem MontCtx.Valid.redc_mul_forms {mw p q : Nat} {c : MontCtx} (hc : c.Valid mw) (hp : p < c.mn) (hq : q < c.mn) :
    (redc c (residueForm .montgomery c.mn p * residueForm .montgomery c.mn q)).1 =
      residueForm .montgomery c.mn (p * q % c.mn) := by
  have hlt := hc.mul_lt (residueForm_lt .montgomery hp) (residueForm_lt .montgomery hq)
  have hpq : p * q % c.mn < c.mn := Nat.mod_lt _ (Nat.zero_lt_of_lt hp)
  refine redc_eq_of_modEq hc hlt (residueForm_lt .montgomery hpq) ?_
  rw [hc.residueForm_eq, hc.residueForm_eq, hc.residueForm_eq]
  calc p * q % c.mn * c.mr % c.mn * c.mr
      ≡ p * q * c.mr * c.mr [MOD c.mn] :=
        ((Nat.mod_modEq _ _).trans ((Nat.mod_modEq _ _).mul_right _)).mul_right _
    _ = p * c.mr * (q * c.mr) := by ring
    _ ≡ p * c.mr % c.mn * (q * c.mr % c.mn) [MOD c.mn] := ((Nat.mod_modEq _ _).mul (Nat.mod_modEq _ _)).symm

/-- R161: `redc` of the Montgomery form of a residue is the residue. -/
theorem MontCtx.Valid.redc_form {mw p : Nat} {c : MontCtx} (hc : c.Valid mw) (hp : p < c.mn) :
    (redc c (residueForm .montgomery c.mn p)).1 = p := by
  have hR : 0 < c.mr := hc.radix ▸ Nat.two_pow_pos c.mk
  refine redc_eq_of_modEq hc ((residueForm_lt .montgomery hp).trans_le (Nat.le_mul_of_pos_right _ hR)) hp ?_
  rw [hc.residueForm_eq]
  exact (Nat.mod_modEq _ _).symm

end Sys2Proof.Machine

namespace Sys2Proof.Laws

open Sys2Proof.Machine

/-- The checks of DIN, the same on every engine (R122). -/
theorem checksOf_dinOf (e : Engine) (rd rs1 : Reg) (s : State) :
    checksOf (dinOf e rd rs1) s = [needsContext (validOf s e), needsBelow (s.readX rs1) (modulusOf s e) .rs1] := by
  cases e <;> rfl

/-- The checks of DOUT, the same on every engine (R122). -/
theorem checksOf_doutOf (e : Engine) (rd rs1 : Reg) (s : State) :
    checksOf (doutOf e rd rs1) s = [needsContext (validOf s e), needsBelow (s.readX rs1) (modulusOf s e) .rs1] := by
  cases e <;> rfl

/-- The checks of MUL, the same on every engine (R122). -/
theorem checksOf_mulOf (e : Engine) (rd rs1 rs2 : Reg) (s : State) :
    checksOf (mulOf e rd rs1 rs2) s = [needsContext (validOf s e), needsBelow (s.readX rs1) (modulusOf s e) .rs1,
      needsBelow (s.readX rs2) (modulusOf s e) .rs2] := by
  cases e <;> rfl

/-- The checks of CONS: the Montgomery engine alone asks for an odd modulus (R150, R180, R200). -/
theorem checksOf_consOf (e : Engine) (rs1 : Reg) (s : State) :
    checksOf (consOf e rs1) s = [needsModulus s.cfg (s.readX rs1) (decide (e = .montgomery))] := by
  cases e <;> rfl

section

variable {s : State} {e : Engine} {n : Nat}

/-- A valid context has its valid bit set (R29). -/
theorem validOf_of_contextReady (h : contextReady s e) : validOf s e = true := by
  cases e <;> exact h.1

/-- With the invariant, a set valid bit means a valid context (R28). -/
theorem contextReady_of_inv (h : s.Inv) (hv : validOf s e = true) : contextReady s e := by
  cases e
  · exact ⟨hv, h.naive⟩
  · exact ⟨hv, h.mont⟩
  · exact ⟨hv, h.barrett⟩

variable {rs1 rs2 : Reg} {p q : Nat} (h : s.Holds e n)

include h

/-- R160, R190, R202: DIN of a residue writes its form. -/
theorem exec_dinOf (rd : Reg) (hr : s.readX rs1 = p) (hp : p < n) :
    ∃ t, exec (dinOf e rd rs1) s = .next t ∧ s.Writes rd (residueForm e n p) t := by
  obtain ⟨hready, rfl⟩ := h
  subst hr
  refine ⟨_, exec_commits ?_, ?_⟩
  · simp [checksOf_dinOf, validOf_of_contextReady hready, hp]
  · cases e
    case montgomery =>
      rw [modulusOf, (hready.2.valid hready.1).residueForm_eq]
      exact State.Writes.writeX s rd _
    all_goals exact State.Writes.writeX s rd _

/-- R162, R188, R201: MUL of two forms writes the form of the product. -/
theorem exec_mulOf (rd : Reg) (h1 : s.readX rs1 = residueForm e n p) (h2 : s.readX rs2 = residueForm e n q)
    (hp : p < n) (hq : q < n) :
    ∃ t, exec (mulOf e rd rs1 rs2) s = .next t ∧ s.Writes rd (residueForm e n (p * q % n)) t := by
  obtain ⟨hready, rfl⟩ := h
  refine ⟨_, exec_commits ?_, ?_⟩
  · simp [checksOf_mulOf, validOf_of_contextReady hready, h1, h2, residueForm_lt e hp, residueForm_lt e hq]
  · cases e <;> simp only [mulOf, commitOf, h1, h2]
    case naive => exact State.Writes.writeX s rd _
    case montgomery =>
      rw [modulusOf, (hready.2.valid hready.1).redc_mul_forms hp hq]
      exact (State.Writes.writeX s rd _).writeFsub _
    case barrett =>
      rw [breduce_fst (hready.2.valid hready.1)]
      exact (State.Writes.writeX s rd _).writeBcnt _

/-- R161, R191, R203: DOUT of a form writes the residue. -/
theorem exec_doutOf (rd : Reg) (hr : s.readX rs1 = residueForm e n p) (hp : p < n) :
    ∃ t, exec (doutOf e rd rs1) s = .next t ∧ s.Writes rd p t := by
  obtain ⟨hready, rfl⟩ := h
  refine ⟨_, exec_commits ?_, ?_⟩
  · simp [checksOf_doutOf, validOf_of_contextReady hready, hr, residueForm_lt e hp]
  · cases e <;> simp only [doutOf, commitOf, hr]
    case montgomery =>
      rw [modulusOf, (hready.2.valid hready.1).redc_form hp]
      exact (State.Writes.writeX s rd _).writeFsub _
    all_goals exact State.Writes.writeX s rd _

end

end Sys2Proof.Laws

namespace Sys2Proof.Certificates

open Sys2Proof.Machine Sys2Proof.Laws

/-- Settles O28: each command of the two sequences writes the form its operands' residues call for, and the registers that the
next one reads are not overwritten. -/
theorem enginesShareOneContract : Obligations.EnginesShareOneContract := by
  intro e s ra rb r1 r2 r3 r4 hready herr ha hb h1b h12
  have hs : s.Holds e (modulusOf s e) := ⟨hready, rfl⟩
  generalize modulusOf s e = n at *
  obtain ⟨s1, x1, w1⟩ := exec_dinOf hs r1 rfl ha
  constructor
  · have hs1 := w1.holds hs
    obtain ⟨s2, x2, w2⟩ := exec_dinOf hs1 r2 (w1.readX_other h1b) hb
    have hs2 := w2.holds hs1
    have hform1 : s2.readX r1 = residueForm e n (s.readX ra) := (w2.readX_other h12.symm).trans w1.readX_same
    obtain ⟨s3, x3, w3⟩ := exec_mulOf hs2 r3 hform1 w2.readX_same ha hb
    have hprod : s.readX ra * s.readX rb % n < n := Nat.mod_lt _ (Nat.zero_lt_of_lt ha)
    obtain ⟨s4, x4, w4⟩ := exec_doutOf (w3.holds hs2) r4 w3.readX_same hprod
    have herr4 : s4.err = false := by rw [w4.err, w3.err, w2.err, w1.err, herr]
    exact ⟨s4, by simp only [execAll, x1, x2, x3, x4], herr4, w4.readX_same⟩
  · obtain ⟨s2, x2, w2⟩ := exec_doutOf (w1.holds hs) r4 w1.readX_same ha
    exact ⟨s2, by simp only [execAll, x1, x2], by rw [w2.err, w1.err, herr], w2.readX_same⟩

end Sys2Proof.Certificates
end

section
/-! SUPPORT. The host's accesses as steps from one state of the block to the next (R70, R131): the accesses of a pseudo-instruction
or of a command line, one group after the other, and what stays true along a run without an error. -/

namespace Sys2Proof.Machine

/-- Steps of a run follow those before them. -/
theorem runSteps_add {m : Nat} (n : Nat) {s t : State} (h : runSteps m s = .next t) :
    runSteps (m + n) s = runSteps n t := by
  induction m generalizing s with
  | zero =>
    cases h
    rw [Nat.zero_add]
  | succ m ih =>
    rw [Nat.succ_add]
    simp only [runSteps] at h ⊢
    split at h
    · exact ih h
    · cases h
    · cases h

/-- The events `evs` lead the block from `s` to `t`, whatever events come after them; the inboxes of `s` and `t` are left open. -/
def State.Performs (s : State) (evs : List HostEvent) (t : State) : Prop :=
  ∀ rest, runSteps evs.length { s with inbox := evs ++ rest } = .next { t with inbox := rest }

theorem State.Performs.nil (s : State) : s.Performs [] s := fun _ => rfl

/-- Events that follow others go on from the state those lead to. -/
theorem State.Performs.append {s t u : State} {evs evs' : List HostEvent} (h : s.Performs evs t)
    (h' : t.Performs evs' u) : s.Performs (evs ++ evs') u := by
  intro rest
  rw [List.length_append, List.append_assoc, runSteps_add _ (h (evs' ++ rest))]
  exact h' rest

end Sys2Proof.Machine

namespace Sys2Proof.Laws

open Sys2Proof.Machine Sys2Proof.Certificates

/-- The invariant holds after any number of steps. -/
theorem runSteps_inv {k : Nat} {s t : State} (h : s.Inv) (hrun : runSteps k s = .next t) : t.Inv := by
  induction k generalizing s with
  | zero =>
    cases hrun
    exact h
  | succ k ih =>
    simp only [runSteps] at hrun
    split at hrun
    · next u hu => exact ih (stepKeepsInvariant s u h hu) hrun
    · cases hrun
    · cases hrun

/-- The invariant holds after events were performed. -/
theorem performs_inv {s t : State} {evs : List HostEvent} (h : s.Inv) (hp : s.Performs evs t) : t.Inv :=
  (runSteps_inv (h.setInbox (evs ++ [])) (hp [])).setInbox t.inbox

/-- R102, R120: a command line outside the error state performs the command, and its response is OK. -/
theorem performs_cmdLine {s t : State} {i : Instr} (hp : s.phase = .running) (he : s.err = false)
    (h : exec i s = .next t) : s.Performs (cmdLine s.cfg i) (t.respond .ok) := by
  intro rest
  obtain ⟨u, -, hstep, -, -, -, hexec⟩ :=
    stepRunsDecodedCommand { s with inbox := cmdLine s.cfg i ++ rest } (encode i) rest hp rfl
  cases (exec_setInbox rest h).symm.trans (hexec he i (decodeInvertsEncode i))
  simp only [cmdLine, List.length_singleton, runSteps] at hstep ⊢
  rw [hstep]
  rfl

/-- R102: LDX writes the register. -/
theorem performs_ldx {s : State} (h : s.Inv) (hp : s.phase = .running) (i : Reg) {v : Nat} (hv : v < 2 ^ xlen s.cfg) :
    ∃ t, s.Performs (ldx s.cfg i v) t ∧ s.Writes i v t :=
  ⟨{ s.writeX i v with log := s.log ++ List.replicate (s.cfg.mw / 16) .ok },
    fun rest => ldxLoadsRegister { s with inbox := ldx s.cfg i v ++ rest } i v rest (h.setInbox _) hp hv rfl,
    { State.Writes.writeX s i v with log := List.prefix_append _ _ }⟩

/-- R150, R180, R200: CONS commits a context, marked valid, of its operand. -/
theorem context_commitOf_consOf (e : Engine) (r : Reg) (s : State) :
    validOf (commitOf (consOf e r) s) e = true ∧ modulusOf (commitOf (consOf e r) s) e = s.readX r := by
  cases e <;> exact ⟨rfl, rfl⟩

/-- A state of a run that began in `s₀`: the block runs, with the parameters of `s₀`, the invariant and no error. -/
structure Errorless (s₀ s : State) : Prop where
  inv : s.Inv
  running : s.phase = .running
  noError : s.err = false
  cfg : s.cfg = s₀.cfg
  log : s₀.log <+: s.log

namespace Errorless

variable {s₀ s t : State} (h : Errorless s₀ s)

include h

/-- A run goes on without an error where events write a register. -/
theorem writes {evs : List HostEvent} {rd : Reg} {v : Nat} (hp : s.Performs evs t) (hw : s.Writes rd v t) :
    Errorless s₀ t :=
  ⟨performs_inv h.inv hp, hw.phase.trans h.running, hw.err.trans h.noError, hw.cfg.trans h.cfg, h.log.trans hw.log⟩

/-- R102: LDX in a run without an error. -/
theorem ldx (i : Reg) {v : Nat} (hv : v < 2 ^ xlen s₀.cfg) :
    ∃ t, s.Performs (Machine.ldx s₀.cfg i v) t ∧ Errorless s₀ t ∧ s.Writes i v t := by
  obtain ⟨t, hp, hw⟩ := performs_ldx h.inv h.running i (h.cfg.symm ▸ hv)
  rw [h.cfg] at hp
  exact ⟨t, hp, h.writes hp hw, hw⟩

/-- R102, R120: the line of a command that writes a register, in a run without an error. -/
theorem cmdLine {i : Instr} {rd : Reg} {v : Nat} (hx : ∃ t, exec i s = .next t ∧ s.Writes rd v t) :
    ∃ t, s.Performs (Machine.cmdLine s₀.cfg i) t ∧ Errorless s₀ t ∧ s.Writes rd v t := by
  obtain ⟨t, ht, hw⟩ := hx
  have hp := performs_cmdLine h.running h.noError ht
  rw [h.cfg] at hp
  exact ⟨t.respond .ok, hp, h.writes hp (hw.respond .ok), hw.respond .ok⟩

/-- R150, R180, R200: the line of CONS with a modulus that its engine accepts, in a run without an error. -/
theorem consLine {e : Engine} {r : Reg} {n : Nat} (hr : s.readX r = n) (hpos : 0 < n) (hfit : n < 2 ^ s₀.cfg.mw)
    (hodd : e = .montgomery → n % 2 = 1) :
    ∃ t, s.Performs (Machine.cmdLine s₀.cfg (consOf e r)) t ∧ Errorless s₀ t ∧ t.Holds e n := by
  have hx : exec (consOf e r) s = .next (commitOf (consOf e r) s) := exec_commits <| by
    simpa [checksOf_consOf, hr, h.cfg, hpos, hfit] using hodd
  have hp := performs_cmdLine h.running h.noError hx
  rw [h.cfg] at hp
  obtain ⟨-, hphase, hcfg, -, hlog⟩ := commitOf_frame (i := consOf e r) (s := s)
  have ht : Errorless s₀ ((commitOf (consOf e r) s).respond .ok) :=
    ⟨performs_inv h.inv hp, hphase.trans h.running, err_commitOf h.noError, hcfg.trans h.cfg,
      (hlog.symm ▸ h.log).trans (List.prefix_append _ _)⟩
  obtain ⟨hvalid, hmodulus⟩ := context_commitOf_consOf e r s
  exact ⟨_, hp, ht, contextReady_of_inv ht.inv hvalid, hmodulus.trans hr⟩

/-- R131: the loop of FOLD.e multiplies the form in `X[2]` by every multiplicand. -/
theorem foldLoop {e : Engine} {n p : Nat} {vs : List Nat} (hn : n < 2 ^ s₀.cfg.mw) (hs : s.Holds e n)
    (hacc : s.readX 2 = residueForm e n p) (hp : p < n) (hvs : ∀ v ∈ vs, v < n) :
    ∃ t, s.Performs (Machine.foldLoop s₀.cfg e vs) t ∧ Errorless s₀ t ∧ t.Holds e n ∧
      t.readX 2 = residueForm e n (p * vs.prod % n) := by
  induction vs generalizing s p with
  | nil => exact ⟨s, .nil s, h, hs, by simpa [Nat.mod_eq_of_lt hp] using hacc⟩
  | cons v vs ih =>
    obtain ⟨hv, hvs⟩ := List.forall_mem_cons.mp hvs
    obtain ⟨s1, p1, h1, w1⟩ := h.ldx 3 (State.Inv.fits_xlen _ (hv.trans hn))
    have hs1 := w1.holds hs
    obtain ⟨s2, p2, h2, w2⟩ := h1.cmdLine (exec_dinOf hs1 3 w1.readX_same hv)
    have hs2 := w2.holds hs1
    have hacc2 : s2.readX 2 = residueForm e n p :=
      (w2.readX_other (by decide)).trans ((w1.readX_other (by decide)).trans hacc)
    obtain ⟨s3, p3, h3, w3⟩ := h2.cmdLine (exec_mulOf hs2 2 hacc2 w2.readX_same hp hv)
    obtain ⟨t, p4, ht, hst, hacct⟩ :=
      ih h3 (w3.holds hs2) w3.readX_same (Nat.mod_lt _ (Nat.zero_lt_of_lt hp)) hvs
    refine ⟨t, ((p1.append p2).append p3).append p4, ht, hst, ?_⟩
    rw [hacct, Nat.mod_mul_mod, List.prod_cons, Nat.mul_assoc]

/-- R102: RDX in a run without an error gives the host the words of the register. -/
theorem rdx (i : Reg) (rest : List HostEvent) : ∃ ws : List Word,
    runSteps (Machine.rdx s₀.cfg i).length { s with inbox := Machine.rdx s₀.cfg i ++ rest } =
      .next { s with inbox := rest, log := s.log ++ ws.map Response.data } ∧
    ws.length = s₀.cfg.mw / 16 ∧ assembleWords ws = s.readX i := by
  rw [← h.cfg]
  exact rdxReadsRegister { s with inbox := Machine.rdx s.cfg i ++ rest } i rest (h.inv.setInbox _) h.running rfl

end Errorless

end Sys2Proof.Laws

namespace Sys2Proof.Certificates

open Sys2Proof.Machine Sys2Proof.Laws

/-- Settles O29: CONS gives the engine the modulus, DIN puts the starting residue into `X[2]` in the engine's form, the loop
multiplies that form by every multiplicand, and DOUT turns it back into a residue, which the reads give the host. -/
theorem foldComputesProductOnEveryEngine : Obligations.FoldComputesProductOnEveryEngine := by
  intro e s n x0 vs rest hinv hrunning herr hpos hbits hodd hx0 hvs hin
  have hn : n < 2 ^ s.cfg.mw := (bitlength_le_iff n _).mp hbits
  have h : Errorless s s := ⟨hinv, hrunning, herr, rfl, List.prefix_rfl⟩
  obtain ⟨s1, p1, h1, w1⟩ := h.ldx 0 (State.Inv.fits_xlen _ hn)
  obtain ⟨s2, p2, h2, hs2⟩ := h1.consLine w1.readX_same hpos hn hodd
  obtain ⟨s3, p3, h3, w3⟩ := h2.ldx 1 (State.Inv.fits_xlen _ (hx0.trans hn))
  have hs3 := w3.holds hs2
  obtain ⟨s4, p4, h4, w4⟩ := h3.cmdLine (exec_dinOf hs3 2 w3.readX_same hx0)
  obtain ⟨s5, p5, h5, hs5, hacc⟩ := h4.foldLoop hn (w4.holds hs3) w4.readX_same hx0 hvs
  obtain ⟨s6, p6, h6, w6⟩ := h5.cmdLine (exec_doutOf hs5 4 hacc (Nat.mod_lt _ hpos))
  have hcompute := ((((p1.append p2).append p3).append p4).append p5).append p6
  have hresult : s6.readX 4 = x0 * vs.prod % n := w6.readX_same
  obtain ⟨ws, hread, hlen, hws⟩ := h6.rdx 4 rest
  have hrun : runSteps (foldProgram s.cfg e n x0 vs).length s =
      .next { s6 with inbox := rest, log := s6.log ++ ws.map Response.data } := by
    calc runSteps (foldProgram s.cfg e n x0 vs).length s
        = runSteps (foldProgram s.cfg e n x0 vs).length { s with inbox := foldProgram s.cfg e n x0 vs ++ rest } := by
          rw [← hin]
      _ = runSteps (rdx s.cfg 4).length { s6 with inbox := rdx s.cfg 4 ++ rest } := by
          rw [foldProgram, List.length_append, List.append_assoc _ (rdx s.cfg 4)]
          exact runSteps_add _ (hcompute _)
      _ = .next { s6 with inbox := rest, log := s6.log ++ ws.map Response.data } := hread
  obtain ⟨oks, hoks⟩ := h6.log
  exact ⟨_, oks, ws, hrun, h6.noError, rfl, hresult, by rw [hoks], hlen, hws.trans hresult⟩

end Sys2Proof.Certificates
end

section
/-! SUPPORT. What the extended Euclidean algorithm ends with and that the inverse is unique (R141, R143); what a command raises
when one of its checks fails after checks that hold (R122), and the match of a command with three registers (R95). -/

namespace Sys2Proof.Machine

/-- R141: `egcd` ends with the gcd, and with a coefficient for `a` that gives it modulo `m`. -/
theorem egcd_spec (a m : Nat) :
    (egcd a m).1 = Nat.gcd a m ∧ (m : Int) ∣ a * (egcd a m).2 - (Nat.gcd a m : Nat) :=
  egcdLoop_spec a m (m + 1) a m 1 0 (Nat.lt_succ_self m) (by simp) (by simp)

/-- R143: the inverse engine's result is the only inverse below the modulus. -/
theorem eq_inverseMod {a m y : Nat} (hg : Nat.gcd a m = 1) (hy : y < m) (h : a * y ≡ 1 [MOD m]) :
    y = inverseMod a m := by
  have hm : 0 < m := Nat.zero_lt_of_lt hy
  have hmod : y ≡ inverseMod a m [MOD m] :=
    Nat.ModEq.cancel_left_of_coprime ((Nat.gcd_comm m a).trans hg) (h.trans (mul_inverseMod_modEq hm hg).symm)
  exact hmod.eq_of_lt_of_lt hy (inverseMod_lt a hm)

end Sys2Proof.Machine

namespace Sys2Proof.Laws

open Sys2Proof.Machine

/-- R122: a command raises the check that fails after checks that hold. -/
theorem exec_raises {i : Instr} {s : State} (pre : List Check) (c : Check) {post : List Check}
    (hchecks : checksOf i s = pre ++ c :: post) (hpre : ∀ d ∈ pre, d.fails = false) (hc : c.fails = true) :
    exec i s = .next (raisedBy i s c.cause c.opnd) := by
  rw [exec_eq_conclude, hchecks]
  exact conclude_raises i pre post c _ s hpre hc

/-- R95, R100: under the mask of `MUL.e` and `INV` a command's word is its opcode. -/
theorem encode_and_binaryMask {i : Instr} (hopc : opcodeOf i < 2 ^ 8) :
    encode i &&& 0xFFFE00FF#32 = BitVec.ofNat 32 (opcodeOf i) := by
  obtain ⟨hfield, -, -, -, hrsv⟩ := fields_encode i
  exact (and_binaryMask_eq_iff hopc _).mpr ⟨hfield, hrsv⟩

end Sys2Proof.Laws

namespace Sys2Proof.Certificates

open Sys2Proof.Machine Sys2Proof.Laws

/-- Settles O26: the loop of R141 starts with the coefficients 1 and 0, which give `a` and `m` modulo `m`. -/
theorem egcdFindsGcdAndCoefficient : Obligations.EgcdFindsGcdAndCoefficient := by
  intro a m _ _
  obtain ⟨hgcd, hcoef⟩ := egcd_spec a m
  exact ⟨hgcd, Int.emod_eq_zero_of_dvd hcoef⟩

/-- Settles O18: each check in turn fails first, and when none fails the commit writes the only inverse below the modulus. -/
theorem invIsModularInverse : Obligations.InvIsModularInverse := by
  intro rd rs1 rs2 s
  have hgcd := (egcd_spec (s.readX rs1) (s.readX rs2)).1
  refine ⟨encode_and_binaryMask (i := .inv rd rs1 rs2) (by simp [opcodeOf]), fun ha => ?_, fun ha hm => ?_,
    fun ha hm hg => ?_, fun ha hm hg => ?_⟩
  · exact exec_raises [] (needsPositive (s.readX rs1) .rs1) rfl (by simp) (by simp [ha])
  · exact exec_raises [needsPositive (s.readX rs1) .rs1] (needsPositive (s.readX rs2) .rs2) rfl (by simp [ha])
      (by simp [hm])
  · exact exec_raises [needsPositive (s.readX rs1) .rs1, needsPositive (s.readX rs2) .rs2]
      (needsCoprime (egcd (s.readX rs1) (s.readX rs2)).1) rfl (by simp [ha, hm]) (by simp [hgcd, hg])
  · have hpos : 0 < s.readX rs2 := Nat.pos_of_ne_zero hm
    exact ⟨inverseMod (s.readX rs1) (s.readX rs2), inverseMod_lt _ hpos, mul_inverseMod_modEq hpos hg,
      fun _ => eq_inverseMod hg, exec_commits (by simp [checksOf, ha, hm, hgcd, hg])⟩

end Sys2Proof.Certificates
end

section
/-! SUPPORT. The intermediates of `redc` and the flag it returns (R156, R157), and the bounds of a valid Montgomery context
(R28). -/

namespace Sys2Proof.Machine

/-- `m` of R156: the multiple of `N` that `redc` adds to `T`. -/
def redcFactor (c : MontCtx) (T : Nat) : Nat := T % 2 ^ c.mk * c.mnp % c.mr

/-- `u` of R156: what `redc` shifts right by `k` bits. -/
def redcSum (c : MontCtx) (T : Nat) : Nat := T + redcFactor c T * c.mn

/-- R156: `redc` returns whether `t` reached `N` before the subtraction. -/
theorem redc_snd (c : MontCtx) (T : Nat) : (redc c T).2 = decide (c.mn ≤ redcSum c T / 2 ^ c.mk) := by
  rw [redc]
  split
  · next hle => exact (decide_eq_true hle).symm
  · next hlt => exact (decide_eq_false hlt).symm

namespace MontCtx.Valid

variable {mw : Nat} {c : MontCtx} (hc : c.Valid mw)

include hc

/-- R28: the modulus is positive, since it is odd. -/
theorem mn_pos : 0 < c.mn := Nat.pos_of_ne_zero fun h => by simpa [h] using hc.odd

/-- R28: `R` exceeds the modulus, whose bit length is `k`. -/
theorem mn_lt_mr : c.mn < c.mr := hc.radix ▸ hc.k ▸ lt_two_pow_bitlength c.mn

/-- R28: `R` is positive. -/
theorem mr_pos : 0 < c.mr := Nat.zero_lt_of_lt hc.mn_lt_mr

/-- R6, R28: `R` is at most two to `MW`. -/
theorem mr_le : c.mr ≤ 2 ^ mw := by
  rw [hc.radix, hc.k]
  exact Nat.pow_le_pow_right two_pos ((bitlength_le_iff _ _).mpr hc.fits)

/-- R151: `N_prime` is not 0, since `N * N_prime` is -1 modulo `R` and `R` is not 1. -/
theorem mnp_pos : 0 < c.mnp := by
  refine Nat.pos_of_ne_zero fun h => ?_
  have hdvd : c.mr ∣ 1 := Nat.dvd_of_mod_eq_zero (by simpa [h] using hc.negInverse)
  have hle := Nat.le_of_dvd one_pos hdvd
  have hpos := hc.mn_pos
  have hlt := hc.mn_lt_mr
  omega

/-- R156: `m` is below `R`. -/
theorem redcFactor_lt (T : Nat) : redcFactor c T < c.mr := Nat.mod_lt _ hc.mr_pos

/-- R157: below `N * R` the sum is below `2 * N * R`. -/
theorem redcSum_lt {T : Nat} (hT : T < c.mn * c.mr) : redcSum c T < 2 * c.mn * c.mr :=
  calc redcSum c T
      < c.mn * c.mr + c.mr * c.mn := Nat.add_lt_add_of_lt_of_le hT (Nat.mul_le_mul_right _ (hc.redcFactor_lt T).le)
    _ = 2 * c.mn * c.mr := by ring

/-- R161: for a residue `redc` takes no final subtraction, because the sum is below `N * R`. -/
theorem redc_snd_of_lt {T : Nat} (hT : T < c.mn) : (redc c T).2 = false := by
  have hsum : redcSum c T < c.mn * c.mr :=
    calc redcSum c T
        < c.mn + redcFactor c T * c.mn := Nat.add_lt_add_right hT _
      _ = (redcFactor c T + 1) * c.mn := by ring
      _ ≤ c.mr * c.mn := Nat.mul_le_mul_right _ (hc.redcFactor_lt T)
      _ = c.mn * c.mr := Nat.mul_comm _ _
  rw [redc_snd, ← hc.radix]
  exact decide_eq_false (Nat.not_le.mpr ((Nat.div_lt_iff_lt_mul hc.mr_pos).mpr hsum))

/-- R157: the result of `redc` is `T` times the inverse of `R` modulo `N`. -/
theorem redc_eq_mul_inv_mod {T rinv : Nat} (hT : T < c.mn * c.mr) (hinv : c.mr * rinv ≡ 1 [MOD c.mn]) :
    (redc c T).1 = T * rinv % c.mn := by
  refine redc_eq_of_modEq hc hT (Nat.mod_lt _ hc.mn_pos) ?_
  calc T * rinv % c.mn * c.mr
      ≡ T * rinv * c.mr [MOD c.mn] := (Nat.mod_modEq _ _).mul_right _
    _ = T * (c.mr * rinv) := by ring
    _ ≡ T * 1 [MOD c.mn] := hinv.mul_left T
    _ = T := Nat.mul_one T

/-- R28: the residues are in the range of `redc`. -/
theorem lt_mn_mul_mr {T : Nat} (hT : T < c.mn) : T < c.mn * c.mr :=
  hT.trans_le (Nat.le_mul_of_pos_right _ hc.mr_pos)

/-- R155, R161: the result of `redc` for a residue is the residue whose Montgomery form that one is. -/
theorem redc_mul_mod_of_lt {T : Nat} (hT : T < c.mn) : (redc c T).1 * c.mr % c.mn = T :=
  Eq.trans (redc_mul_modEq hc T) (Nat.mod_eq_of_lt hT)

end MontCtx.Valid

/-- R156: what DOUT.M, MUL.M and RED.M commit, with the formula of R156 for `FSUB`. -/
theorem State.writeX_writeFsub_redc (s : State) (rd : Reg) (T : Nat) :
    (s.writeX rd (redc s.mont T).1).writeFsub (redc s.mont T).2 =
      { s with
        x := s.x.set rd.val (redc s.mont T).1
        fsub := decide (s.mont.mn ≤ redcSum s.mont T / 2 ^ s.mont.mk) } := by
  rw [redc_snd]
  rfl

/-- R222: what the modulus check refuses. -/
theorem needsModulus_fails_eq_true (c : Config) (n : Nat) (odd : Bool) :
    (needsModulus c n odd).fails = true ↔ n = 0 ∨ (odd = true ∧ n % 2 = 0) ∨ c.mw < bitlength n := by
  simp [needsModulus, or_assoc]

end Sys2Proof.Machine
end

section
/-! SUPPORT. What a command of an engine raises when its context or an operand is refused (R224, R225), that a command without
an error commits, and the matches of the commands with one and with two registers (R95). -/

namespace Sys2Proof.Laws

open Sys2Proof.Machine

section

variable {i : Instr} {s : State} {valid : Bool} {a b n m : Nat} {post : List Check}

/-- R225: without a valid context a command raises `NOT_CONFIGURED`. -/
theorem exec_raises_notConfigured (hchecks : checksOf i s = needsContext valid :: post) (hv : valid = false) :
    exec i s = .next (raisedBy i s .notConfigured .none) :=
  exec_raises [] (needsContext valid) hchecks (by simp) (by simp [hv])

/-- R224: with a valid context a command whose first operand is out of range raises `OPERAND_RANGE` naming it. -/
theorem exec_raises_rs1_range (hchecks : checksOf i s = needsContext valid :: needsBelow a n .rs1 :: post)
    (hv : valid = true) (ha : n ≤ a) : exec i s = .next (raisedBy i s .operandRange .rs1) :=
  exec_raises [needsContext valid] (needsBelow a n .rs1) hchecks (by simp [hv]) (by simp [ha])

/-- R224: with a valid context and its first operand in range, a command whose second operand is out of range raises
`OPERAND_RANGE` naming that. -/
theorem exec_raises_rs2_range
    (hchecks : checksOf i s = needsContext valid :: needsBelow a n .rs1 :: needsBelow b m .rs2 :: post)
    (hv : valid = true) (ha : a < n) (hb : m ≤ b) : exec i s = .next (raisedBy i s .operandRange .rs2) :=
  exec_raises [needsContext valid, needsBelow a n .rs1] (needsBelow b m .rs2) hchecks (by simp [hv, ha]) (by simp [hb])

/-- R15, R231: a command that leaves no error has committed. -/
theorem eq_commitOf_of_err_eq_false {t : State} (h : exec i s = .next t) (herr : t.err = false) : t = commitOf i s := by
  rcases exec_cases i s with ⟨e, o, -, hraise⟩ | ⟨-, hcommit⟩
  · obtain rfl : s.raise (encode i) e o = t := Host.Outcome.next.inj (hraise.symm.trans h)
    cases herr
  · exact Host.Outcome.next.inj (h.symm.trans hcommit)

/-- R95, R100: under the mask of `CONS.e` a command that names `RS1` at most has its opcode as its word. -/
theorem encode_and_consMask (hopc : opcodeOf i < 2 ^ 8) (hrd : rdOf i = none) (hrs2 : rs2Of i = none) :
    encode i &&& 0xFFFFC7FF#32 = BitVec.ofNat 32 (opcodeOf i) := by
  obtain ⟨hfield, hfieldRd, -, hfieldRs2, hrsv⟩ := fields_encode i
  rw [hrd] at hfieldRd
  rw [hrs2] at hfieldRs2
  exact (and_consMask_eq_iff hopc _).mpr ⟨hfield, hrsv, Fin.ext hfieldRd, Fin.ext hfieldRs2⟩

/-- R95, R100: under the mask of `DIN.e`, `DOUT.e` and `RED.e` a command without `RS2` has its opcode as its word. -/
theorem encode_and_unaryMask (hopc : opcodeOf i < 2 ^ 8) (hrs2 : rs2Of i = none) :
    encode i &&& 0xFFFFC0FF#32 = BitVec.ofNat 32 (opcodeOf i) := by
  obtain ⟨hfield, -, -, hfieldRs2, hrsv⟩ := fields_encode i
  rw [hrs2] at hfieldRs2
  exact (and_unaryMask_eq_iff hopc _).mpr ⟨hfield, hrsv, Fin.ext hfieldRs2⟩

end

end Sys2Proof.Laws
end

section
/-! The Montgomery engine (42_montgomery.md): its context, the properties of `redc` and of the Montgomery form, and each of its
commands (O7, O10, O13, O14, O16, O20, O25, O27). -/

namespace Sys2Proof.Certificates

open Sys2Proof.Machine Sys2Proof.Laws

/-- Settles O7: an odd `N` is coprime to the power of two `R`, so the inverse that `N_prime` is calculated from exists. -/
theorem consMConstructsContext : Obligations.ConsMConstructsContext := by
  intro rs1 s
  refine ⟨encode_and_consMask (i := .consM rs1) (by simp [opcodeOf]) rfl rfl, fun hbad => ?_, fun hne hodd hlen => ?_⟩
  · exact exec_raises [] (needsModulus s.cfg (s.readX rs1) true) rfl (by simp)
      ((needsModulus_fails_eq_true _ _ _).mpr (by simpa using hbad))
  · have hfit : s.readX rs1 < 2 ^ s.cfg.mw := (bitlength_le_iff _ _).mp hlen
    have hc := montContext_valid hodd hfit
    exact ⟨montContext (s.readX rs1), exec_commits (by simp [checksOf, Nat.pos_of_ne_zero hne, hodd, hfit]),
      rfl, rfl, rfl, rfl, hc.mnp_pos, hc.below, hc.negInverse, (egcd_spec _ _).1.trans hc.coprime,
      inverseMod (s.readX rs1) _, inverseMod_lt _ hc.mr_pos, mul_inverseMod_modEq hc.mr_pos hc.coprime, rfl⟩

/-- Settles O10: `redc` of the product is the only residue that `R` times is the product, and the form of `p * q` is one when
the operands are the forms of `p` and `q`. -/
theorem mulMIsMontgomeryProduct : Obligations.MulMIsMontgomeryProduct := by
  intro rd rs1 rs2 s
  refine ⟨encode_and_binaryMask (i := .mulM rd rs1 rs2) (by simp [opcodeOf]), exec_raises_notConfigured rfl,
    exec_raises_rs1_range rfl, exec_raises_rs2_range rfl, fun hv hc ha hb => ?_⟩
  refine ⟨_, redc_lt hc (hc.mul_lt ha hb), redc_mul_modEq hc _, ?_, fun p q hp hq hap hbq => ?_⟩
  · exact (exec_commits (by simp [checksOf, hv, ha, hb])).trans
      (congrArg Host.Outcome.next (s.writeX_writeFsub_redc rd (s.readX rs1 * s.readX rs2)))
  · simpa only [hc.residueForm_eq, ← hap, ← hbq] using hc.redc_mul_forms hp hq

/-- Settles O14: the result of `redc` is the residue whose form the operand is, and a residue takes no final subtraction. -/
theorem doutMLeavesMontgomeryForm : Obligations.DoutMLeavesMontgomeryForm := by
  intro rd rs1 s
  refine ⟨encode_and_unaryMask (i := .doutM rd rs1) (by simp [opcodeOf]) rfl, exec_raises_notConfigured rfl,
    exec_raises_rs1_range rfl, fun hv hc hx => ?_⟩
  refine ⟨_, redc_lt hc (hc.lt_mn_mul_mr hx), hc.redc_mul_mod_of_lt hx, ?_⟩
  rw [exec_commits (by simp [checksOf, hv, hx]), commitOf, hc.redc_snd_of_lt hx]
  rfl

/-- Settles O16: below `N * R` the result of `redc` is a residue, and `R` times it is the operand modulo `N`. -/
theorem redMIsMontgomeryReduction : Obligations.RedMIsMontgomeryReduction := by
  intro rd rs1 s
  refine ⟨encode_and_unaryMask (i := .redM rd rs1) (by simp [opcodeOf]) rfl, exec_raises_notConfigured rfl,
    exec_raises_rs1_range rfl, fun hv hc hT => ?_⟩
  exact ⟨_, redc_lt hc hT, redc_mul_modEq hc _, (exec_commits (by simp [checksOf, hv, hT])).trans
    (congrArg Host.Outcome.next (s.writeX_writeFsub_redc rd (s.readX rs1)))⟩

/-- Settles O20: `R` divides the sum, which is below `2 * N * R`, and the widths follow from `N < 2^MW` and `R ≤ 2^MW`. -/
theorem redcIsExactReduction : Obligations.RedcIsExactReduction := by
  intro mw c T hc hT
  have hdvd : c.mr ∣ redcSum c T := mr_dvd_redc_sum hc T
  have hsum := hc.redcSum_lt hT
  have hmod : redcSum c T % c.mn = T % c.mn := Nat.add_mul_mod_self_right _ _ _
  have hflag : (redc c T).2 = decide (c.mn ≤ redcSum c T / c.mr) := hc.radix ▸ redc_snd c T
  have hproduct : c.mn * c.mr < 2 ^ (2 * mw) := by
    rw [two_mul, pow_add]
    exact Nat.mul_lt_mul_of_lt_of_le hc.fits hc.mr_le (Nat.two_pow_pos mw)
  refine ⟨Nat.mod_eq_zero_of_dvd hdvd, (Nat.div_lt_iff_lt_mul hc.mr_pos).mpr hsum, ?_, redc_lt hc hT, hflag,
    fun _ => hc.redc_eq_mul_inv_mod hT, ?_, ?_⟩
  · exact (congrArg (· % c.mn) (Nat.div_mul_cancel hdvd)).trans hmod
  · calc redcSum c T < 2 * (c.mn * c.mr) := by rwa [← Nat.mul_assoc]
      _ < 2 ^ (2 * mw + 1) := by rw [pow_succ]; omega
  · calc redcFactor c T * c.mn ≤ c.mr * c.mn := Nat.mul_le_mul_right _ (hc.redcFactor_lt T).le
      _ = c.mn * c.mr := Nat.mul_comm _ _
      _ < 2 ^ (2 * mw) := hproduct

/-- Settles O25: `R` is coprime to `N` and can be cancelled, and `redc` finds the residue of every form. -/
theorem montgomeryFormIsBijective : Obligations.MontgomeryFormIsBijective := by
  intro mw c hc
  refine ⟨fun _ _ => Nat.mod_lt _ hc.mn_pos, fun p q hp hq h => ?_, fun y hy => ?_⟩
  · have hpq : p ≡ q [MOD c.mn] := Nat.ModEq.cancel_right_of_coprime hc.coprime h
    exact hpq.eq_of_lt_of_lt hp hq
  · exact ⟨(redc c y).1, redc_lt hc (hc.lt_mn_mul_mr hy), hc.redc_mul_mod_of_lt hy⟩

/-- Settles O13: each check in turn fails first, and when none fails the commit writes the Montgomery form. -/
theorem dinMIsMontgomeryForm : Obligations.DinMIsMontgomeryForm := by
  intro rd rs1 s
  exact ⟨encode_and_unaryMask (i := .dinM rd rs1) (by simp [opcodeOf]) rfl, exec_raises_notConfigured rfl,
    exec_raises_rs1_range rfl, fun hv hx => exec_commits (by simp [checksOf, hv, hx])⟩

/-- Settles O27: a CONS that leaves no error has committed, and it commits a function of the modulus. -/
theorem contextsDependOnModulusAlone : Obligations.ContextsDependOnModulusAlone := by
  intro r q s t s' t' hreg
  constructor <;> intro hs ht _ _ hs' ht' <;>
    rw [eq_commitOf_of_err_eq_false hs hs', eq_commitOf_of_err_eq_false ht ht']
  · exact congrArg montContext hreg
  · exact congrArg barrettContext hreg

end Sys2Proof.Certificates
end

section
/-! SUPPORT. The range of the constants of a valid Barrett context (R181), what the estimate of `breduce` loses and how often its
correction loop runs (R184, R185), the widths of its intermediates (R186), and what MUL.B and RED.B commit (R188, R189). -/

namespace Sys2Proof.Machine

/-- R185: the spec's `2^k/N + N^2/2^(2k) ≤ 2.25` for `K = 2^k` with `N` in `[K/2, K]`, without the division. -/
theorem four_mul_cubes_le {N K : Nat} (hNK : N ≤ K) (hKN : K ≤ 2 * N) : 4 * K ^ 3 + 4 * N ^ 3 ≤ 9 * N * K ^ 2 := by
  obtain ⟨d, rfl⟩ := Nat.exists_eq_add_of_le hNK
  have hd : d ≤ N := by omega
  have hddd : d * d * d ≤ N * N * N := Nat.mul_le_mul (Nat.mul_le_mul hd hd) hd
  have hddN : d * d * N ≤ N * d * N := Nat.mul_le_mul_right _ (Nat.mul_le_mul_right _ hd)
  have hdNd : d * d * d ≤ N * d * N := Nat.mul_le_mul (Nat.mul_le_mul_right _ hd) hd
  linarith

namespace BarrettCtx.Valid

variable {mw v : Nat} {c : BarrettCtx} (hc : c.Valid mw)

include hc

/-- R28: the modulus has at most `k` bits. -/
theorem bn_lt : c.bn < 2 ^ c.bk := hc.k ▸ lt_two_pow_bitlength c.bn

/-- R13, R28: the modulus is at least half of two to `k`. -/
theorem two_pow_bk_le : 2 ^ c.bk ≤ 2 * c.bn := by
  have hlow : 2 ^ (c.bk - 1) ≤ c.bn := hc.k ▸ two_pow_le_of_pos hc.positive
  have hpos : 0 < c.bk := hc.k ▸ bitlength_pos hc.positive
  calc 2 ^ c.bk = 2 * 2 ^ (c.bk - 1) := (mul_pow_sub_one hpos.ne' 2).symm
    _ ≤ 2 * c.bn := Nat.mul_le_mul_left 2 hlow

/-- R180: `k` is at most `MW`. -/
theorem bk_le : c.bk ≤ mw := hc.k ▸ (bitlength_le_iff _ _).mpr hc.fits

/-- R181: `mu` is at least two to `k`. -/
theorem le_bmu : 2 ^ c.bk ≤ c.bmu := by
  rw [hc.reciprocal, two_mul, pow_add]
  exact (Nat.le_div_iff_mul_le hc.positive).mpr (Nat.mul_le_mul_left _ hc.bn_lt.le)

/-- R186: an operand of `breduce` has at most `2 * k` bits. -/
theorem lt_two_pow_two_mul_bk (hv : v < c.bn * c.bn) : v < 2 ^ (2 * c.bk) := by
  rw [two_mul, pow_add]
  exact hv.trans (Nat.mul_lt_mul'' hc.bn_lt hc.bn_lt)

/-- R186: the shifted operand has at most `k` bits. -/
theorem shifted_lt (hv : v < c.bn * c.bn) : v / 2 ^ c.bk < 2 ^ c.bk := by
  rw [Nat.div_lt_iff_lt_mul (Nat.two_pow_pos _), ← pow_add, ← two_mul]
  exact hc.lt_two_pow_two_mul_bk hv

/-- R186: the shifted operand times `mu` has at most `2 * k + 1` bits. -/
theorem shifted_mul_bmu_lt (hv : v < c.bn * c.bn) : v / 2 ^ c.bk * c.bmu < 2 ^ (2 * c.bk + 1) :=
  calc v / 2 ^ c.bk * c.bmu
      < 2 ^ c.bk * 2 ^ (c.bk + 1) :=
        Nat.mul_lt_mul_of_lt_of_le (hc.shifted_lt hv) hc.bmu_le (Nat.two_pow_pos _)
    _ = 2 ^ (2 * c.bk + 1) := by ring

/-- R185: what the estimate leaves, times two to `k`, is what the three floors lose: in `x >> k`, in `mu`, and in the estimate. -/
theorem two_pow_bk_mul_candidate (v : Nat) :
    2 ^ c.bk * (v - barrettEstimate c v * c.bn) =
      2 ^ c.bk * (v % 2 ^ c.bk) + v / 2 ^ c.bk * (2 ^ (2 * c.bk) % c.bn) + v / 2 ^ c.bk * c.bmu % 2 ^ c.bk * c.bn := by
  have hx := Nat.div_add_mod v (2 ^ c.bk)
  have hmu : c.bn * c.bmu + 2 ^ (2 * c.bk) % c.bn = 2 ^ c.bk * 2 ^ c.bk := by
    rw [hc.reciprocal, Nat.div_add_mod, two_mul, pow_add]
  have hq : 2 ^ c.bk * barrettEstimate c v + v / 2 ^ c.bk * c.bmu % 2 ^ c.bk = v / 2 ^ c.bk * c.bmu :=
    Nat.div_add_mod _ _
  rw [Nat.mul_sub]
  refine Nat.sub_eq_of_eq_add ?_
  linear_combination v / 2 ^ c.bk * hmu.symm + c.bn * hq.symm + 2 ^ c.bk * hx.symm

/-- R185, R186: below `N * N` the estimate leaves less than `3.25 * N`. -/
theorem four_mul_candidate_lt (hv : v < c.bn * c.bn) : 4 * (v - barrettEstimate c v * c.bn) < 13 * c.bn := by
  have hK : 0 < 2 ^ c.bk := Nat.two_pow_pos _
  have hcubes := four_mul_cubes_le hc.bn_lt.le hc.two_pow_bk_le
  have hloss := hc.two_pow_bk_mul_candidate v
  have ha : v / 2 ^ c.bk * 2 ^ c.bk ≤ c.bn * c.bn := (Nat.div_mul_le_self _ _).trans hv.le
  have he : v % 2 ^ c.bk < 2 ^ c.bk := Nat.mod_lt _ hK
  have hf : 2 ^ (2 * c.bk) % c.bn < c.bn := Nat.mod_lt _ hc.positive
  have hg : v / 2 ^ c.bk * c.bmu % 2 ^ c.bk < 2 ^ c.bk := Nat.mod_lt _ hK
  generalize v - barrettEstimate c v * c.bn = r at *
  generalize v / 2 ^ c.bk * c.bmu % 2 ^ c.bk = g at *
  generalize 2 ^ (2 * c.bk) % c.bn = f at *
  generalize v % 2 ^ c.bk = e at *
  generalize v / 2 ^ c.bk = a at *
  generalize 2 ^ c.bk = K at *
  have hshift : K * K * e < K * K * K := Nat.mul_lt_mul_of_pos_left he (Nat.mul_pos hK hK)
  have hmu : a * K * f ≤ c.bn * c.bn * c.bn := Nat.mul_le_mul ha hf.le
  have hestimate : g * (c.bn * K) ≤ K * (c.bn * K) := Nat.mul_le_mul_right _ hg.le
  refine lt_of_mul_lt_mul_left (a := K * K) ?_ (Nat.zero_le _)
  calc K * K * (4 * r) = 4 * (K * (K * r)) := by ring
    _ = 4 * (K * K * e + a * K * f + g * (c.bn * K)) := by rw [hloss]; ring
    _ < 4 * K ^ 3 + 4 * c.bn ^ 3 + 4 * c.bn * K ^ 2 := by linarith
    _ ≤ K * K * (13 * c.bn) := by linarith

/-- R186: below `N * N` what the estimate leaves has at most `k + 2` bits. -/
theorem candidate_lt_two_pow (hv : v < c.bn * c.bn) : v - barrettEstimate c v * c.bn < 2 ^ (c.bk + 2) := by
  have hr := hc.four_mul_candidate_lt hv
  have hN := hc.bn_lt
  rw [pow_add]
  omega

/-- R184: the estimate is at most the quotient. -/
theorem barrettEstimate_le_div (v : Nat) : barrettEstimate c v ≤ v / c.bn :=
  (Nat.le_div_iff_mul_le hc.positive).mpr (barrettEstimate_mul_le hc v)

/-- R184: the correction loop runs as often as the estimate falls short of the quotient. -/
theorem breduce_snd (v : Nat) : (breduce c v).2 = v / c.bn - barrettEstimate c v := by
  rw [breduce_eq hc, Nat.mul_comm, Nat.sub_mul_div]

/-- R183, R184: the operand is the corrected estimate times the modulus, plus the result. -/
theorem eq_corrected_mul_add_breduce (v : Nat) :
    v = (barrettEstimate c v + (breduce c v).2) * c.bn + (breduce c v).1 := by
  rw [hc.breduce_snd, Nat.add_sub_cancel' (hc.barrettEstimate_le_div v), breduce_fst hc]
  exact (Nat.div_add_mod' _ _).symm

end BarrettCtx.Valid

/-- R39, R188, R189: what MUL.B and RED.B commit: the remainder, and what the estimate falls short, which is not saturated. -/
theorem State.writeX_writeBcnt_breduce {mw v : Nat} {s : State} (hc : s.barrett.Valid mw) (rd : Reg)
    (hv : v < s.barrett.bn * s.barrett.bn) :
    (s.writeX rd (breduce s.barrett v).1).writeBcnt (breduce s.barrett v).2 =
      { s with
        x := s.x.set rd.val (v % s.barrett.bn)
        bcnt := BitVec.ofNat 3 (v / s.barrett.bn - barrettEstimate s.barrett v) } := by
  have hle : (breduce s.barrett v).2 ≤ 7 := (breduce_corrections_le hc hv).trans (by decide)
  rw [State.writeBcnt, Nat.min_eq_left hle, breduce_fst hc, hc.breduce_snd]
  rfl

end Sys2Proof.Machine

namespace Sys2Proof.Laws

open Sys2Proof.Machine

/-- R188, R189: a command whose checks hold and which commits the `breduce` of an operand below `N * N` writes the remainder, and
at most three corrections. -/
theorem exec_breduce {i : Instr} {rd : Reg} {s : State} {mw v : Nat} (hchecks : ∀ d ∈ checksOf i s, d.fails = false)
    (hcommit : commitOf i s = (s.writeX rd (breduce s.barrett v).1).writeBcnt (breduce s.barrett v).2)
    (hc : s.barrett.Valid mw) (hv : v < s.barrett.bn * s.barrett.bn) :
    ∃ n, n ≤ 3 ∧ n = v / s.barrett.bn - barrettEstimate s.barrett v ∧
      exec i s = .next { s with x := s.x.set rd.val (v % s.barrett.bn), bcnt := BitVec.ofNat 3 n } :=
  ⟨_, hc.breduce_snd v ▸ breduce_corrections_le hc hv, rfl,
    (exec_commits hchecks).trans (congrArg _ (hcommit.trans (State.writeX_writeBcnt_breduce hc rd hv)))⟩

end Sys2Proof.Laws
end

section
/-! The Barrett engine (43_barrett.md): its constants, the properties of `breduce`, and each of its commands (O8, O11, O15, O17,
O21, O22, O23, O24). -/

namespace Sys2Proof.Certificates

open Sys2Proof.Machine Sys2Proof.Laws

/-- Settles O11: the product of two residues is below `N * N`. -/
theorem mulBIsRemainderOfProduct : Obligations.MulBIsRemainderOfProduct := by
  intro rd rs1 rs2 s
  exact ⟨encode_and_binaryMask (i := .mulB rd rs1 rs2) (by simp [opcodeOf]), exec_raises_notConfigured rfl,
    exec_raises_rs1_range rfl, exec_raises_rs2_range rfl, fun hv hc ha hb =>
      exec_breduce (by simp [checksOf, hv, ha, hb]) rfl hc (Nat.mul_lt_mul'' ha hb)⟩

/-- Settles O17: each check in turn fails first, and when none fails the operand is below `N * N`. -/
theorem redBIsRemainder : Obligations.RedBIsRemainder := by
  intro rd rs1 s
  exact ⟨encode_and_unaryMask (i := .redB rd rs1) (by simp [opcodeOf]) rfl, exec_raises_notConfigured rfl,
    exec_raises_rs1_range rfl, fun hv hc hx => exec_breduce (by simp [checksOf, hv, hx]) rfl hc hx⟩

/-- Settles O21: the estimate never exceeds the quotient, and the loop makes up for what it falls short. -/
theorem breduceIsRemainder : Obligations.BreduceIsRemainder :=
  fun _ _ v hc => ⟨hc.barrettEstimate_le_div v, breduce_fst hc v, hc.eq_corrected_mul_add_breduce v⟩

/-- Settles O22: the bound for every valid context, and the spec's example evaluated. -/
theorem correctionLoopRunsAtMostThrice : Obligations.CorrectionLoopRunsAtMostThrice :=
  ⟨fun _ _ _ => breduce_corrections_le, by decide⟩

/-- Settles O23: `N` lies between `2^(k-1)` and `2^k`, and `k` is at most `MW`. -/
theorem reciprocalFitsItsRegister : Obligations.ReciprocalFitsItsRegister := by
  intro mw c hc
  have hk := hc.bk_le
  exact ⟨hc.le_bmu, hc.bmu_le, hc.bmu_le.trans_lt (Nat.pow_lt_pow_right one_lt_two (by omega))⟩

/-- Settles O24: the bounds in `k`, which is at most `MW`; no other intermediate is above the product `(x >> k) * mu` or the
operand. -/
theorem barrettIntermediatesFit : Obligations.BarrettIntermediatesFit := by
  intro mw c v hc hv
  have hk := hc.bk_le
  have hx := hc.lt_two_pow_two_mul_bk hv
  have hproduct := hc.shifted_mul_bmu_lt hv
  have hwidth : 2 ^ (2 * c.bk + 1) ≤ 2 ^ (2 * mw + 1) := Nat.pow_le_pow_right two_pos (by omega)
  have hfit : v < 2 ^ (2 * mw + 1) := hx.trans_le (Nat.pow_le_pow_right two_pos (by omega))
  exact ⟨hx, hc.shifted_lt hv, hproduct, hc.barrettEstimate_le_div v, Nat.div_lt_of_lt_mul hv,
    barrettEstimate_mul_le hc v, hc.four_mul_candidate_lt hv, hc.candidate_lt_two_pow hv, hproduct.trans_le hwidth, hfit,
    (Nat.sub_le _ _).trans_lt hfit⟩

/-- Settles O8: the modulus check is the only one, and the commit writes the context derived from the modulus. -/
theorem consBConstructsContext : Obligations.ConsBConstructsContext := by
  intro rs1 s
  refine ⟨encode_and_consMask (i := .consB rs1) (by simp [opcodeOf]) rfl rfl, fun hbad => ?_, fun hne hlen => ?_⟩
  · exact exec_raises [] (needsModulus s.cfg (s.readX rs1) false) rfl (by simp)
      ((needsModulus_fails_eq_true _ _ _).mpr (by simpa using hbad))
  · have hfit : s.readX rs1 < 2 ^ s.cfg.mw := (bitlength_le_iff _ _).mp hlen
    exact exec_commits (by simp [checksOf, Nat.pos_of_ne_zero hne, hfit])

/-- Settles O15: each check in turn fails first, and when none fails the commit copies the residue. -/
theorem barrettConversionsAreIdentity : Obligations.BarrettConversionsAreIdentity := by
  intro rd rs1 s
  exact ⟨encode_and_unaryMask (i := .dinB rd rs1) (by simp [opcodeOf]) rfl,
    encode_and_unaryMask (i := .doutB rd rs1) (by simp [opcodeOf]) rfl,
    fun hv => ⟨exec_raises_notConfigured rfl hv, exec_raises_notConfigured rfl hv⟩,
    fun hv hx => ⟨exec_raises_rs1_range rfl hv hx, exec_raises_rs1_range rfl hv hx⟩,
    fun hv hx => ⟨exec_commits (by simp [checksOf, hv, hx]), exec_commits (by simp [checksOf, hv, hx])⟩⟩

end Sys2Proof.Certificates
end

section
/-! SUPPORT. When the modulus check of an engine that takes even moduli refuses (R222), and that a command of one operand commits
when its context is valid and its operand in range (R224, R225). -/

namespace Sys2Proof.Laws

open Sys2Proof.Machine

section

variable {i : Instr} {s : State} {valid : Bool} {a n : Nat}

/-- R222: a command that checks its modulus first, even ones allowed, raises `INVALID_MODULUS` when it is 0 or too long. -/
theorem exec_raises_invalidModulus {post : List Check} (hchecks : checksOf i s = needsModulus s.cfg n false :: post)
    (hn : n = 0 ∨ s.cfg.mw < bitlength n) : exec i s = .next (raisedBy i s .invalidModulus .rs1) :=
  exec_raises [] (needsModulus s.cfg n false) hchecks (by simp)
    ((needsModulus_fails_eq_true _ _ _).mpr (hn.imp_right .inr))

/-- R222: a command whose only check is its modulus, even ones allowed, commits when it is positive and at most `MW` bits. -/
theorem exec_commits_of_modulus (hchecks : checksOf i s = [needsModulus s.cfg n false]) (hn : n ≠ 0)
    (hlen : bitlength n ≤ s.cfg.mw) : exec i s = .next (commitOf i s) := by
  have hholds : (needsModulus s.cfg n false).fails = false :=
    Bool.eq_false_iff.mpr fun hfails => by
      simpa [hn, hlen.not_gt] using (needsModulus_fails_eq_true _ _ _).mp hfails
  exact exec_commits (by rw [hchecks]; simpa using hholds)

/-- R224, R225: a command of one operand commits when its context is valid and the operand in range. -/
theorem exec_commits_of_rs1_lt (hchecks : checksOf i s = [needsContext valid, needsBelow a n .rs1]) (hv : valid = true)
    (ha : a < n) : exec i s = .next (commitOf i s) :=
  exec_commits (by simp [hchecks, hv, ha])

end

end Sys2Proof.Laws
end

section
/-! The naive reference engine (44_naive.md): each of its commands (O6, O9, O12). -/

namespace Sys2Proof.Certificates

open Sys2Proof.Machine Sys2Proof.Laws

/-- Settles O6: the modulus check is the only one, and the commit keeps the modulus itself as the context. -/
theorem consNLoadsModulus : Obligations.ConsNLoadsModulus := by
  intro rs1 s
  exact ⟨encode_and_consMask (i := .consN rs1) (by simp [opcodeOf]) rfl rfl, exec_raises_invalidModulus rfl,
    exec_commits_of_modulus rfl⟩

/-- Settles O9: each check in turn fails first, and when none fails the commit writes the remainder of the product. -/
theorem mulNIsRemainderOfProduct : Obligations.MulNIsRemainderOfProduct := by
  intro rd rs1 rs2 s
  exact ⟨encode_and_binaryMask (i := .mulN rd rs1 rs2) (by simp [opcodeOf]), exec_raises_notConfigured rfl,
    exec_raises_rs1_range rfl, exec_raises_rs2_range rfl, fun hv ha hb => exec_commits (by simp [checksOf, hv, ha, hb])⟩

/-- Settles O12: both commands check the context and then the operand, and when neither fails they commit the operand. -/
theorem naiveConversionsAreIdentity : Obligations.NaiveConversionsAreIdentity := by
  intro rd rs1 s
  exact ⟨encode_and_unaryMask (i := .dinN rd rs1) (by simp [opcodeOf]) rfl,
    encode_and_unaryMask (i := .doutN rd rs1) (by simp [opcodeOf]) rfl,
    fun hv => ⟨exec_raises_notConfigured rfl hv, exec_raises_notConfigured rfl hv⟩,
    fun hv hx => ⟨exec_raises_rs1_range rfl hv hx, exec_raises_rs1_range rfl hv hx⟩,
    fun hv hx => ⟨exec_commits_of_rs1_lt rfl hv hx, exec_commits_of_rs1_lt rfl hv hx⟩⟩

end Sys2Proof.Certificates
end

section
/-! Block control (45_control.md): CLRERR and the words beside it (O19). -/

namespace Sys2Proof.Laws

open Sys2Proof.Machine

/-- R95, R215: `CLRERR` alone has its opcode and uses no field, so every other word with that opcode is illegal. -/
theorem decode_eq_none_of_clrerr_opcode {w : Word} (hopc : fieldOpc w = opcodeOf .clrerr) (hw : w ≠ encode .clrerr) :
    decode w = none := by
  refine Option.eq_none_iff_forall_ne_some.mpr fun i hi => hw ?_
  obtain rfl := (decode_eq_some_iff w i).mp hi
  obtain ⟨hopci, -⟩ := fields_encode i
  have hsame : opcodeOf i = opcodeOf .clrerr := hopci.symm.trans hopc
  cases i
  case clrerr => rfl
  all_goals simp [opcodeOf] at hsame

end Sys2Proof.Laws

namespace Sys2Proof.Certificates

open Sys2Proof.Machine Sys2Proof.Laws

/-- Settles O19: the word of CLRERR runs CLRERR through the gate or through the decoder; no other word of its opcode
decodes, so the gate drops it in the error state and it is illegal outside. -/
theorem clrerrLeavesErrorState : Obligations.ClrerrLeavesErrorState := by
  have hword : encode .clrerr = 0x0000001C := rfl
  refine ⟨hword, exec_clrerr, fun s => ?_, fun w s hopc hw => ⟨fun he => issue_of_err he hw, fun he => ?_⟩⟩
  · cases he : s.err with
    | true => exact (issue_clrerr_of_err he).trans (exec_clrerr s)
    | false => exact (issue_of_decode_some he ((decode_eq_some_iff _ _).mpr hword)).trans (exec_clrerr s)
  · exact issue_of_decode_none he (decode_eq_none_of_clrerr_opcode hopc hw)

end Sys2Proof.Certificates
end

section
/-! SUPPORT. What leads out of the error state, event by event (R234), the interrupt output (R240), and an access of the window
as one that waits for the block to run (R60, R249, R263). -/

namespace Sys2Proof.Machine

/-- R240: `err_irq` is high exactly in the error state with the interrupt enabled. -/
theorem State.errIrq_eq_true_iff (s : State) : s.errIrq = true ↔ s.err = true ∧ s.irqen = true :=
  Bool.and_eq_true_iff

/-- R240: outside the error state `err_irq` is low. -/
theorem State.errIrq_of_err {s : State} (h : s.err = false) : s.errIrq = false := by
  rw [State.errIrq, h, Bool.false_and]

/-- R240: with the interrupt masked `err_irq` is low. -/
theorem State.errIrq_of_irqen {s : State} (h : s.irqen = false) : s.errIrq = false := by
  rw [State.errIrq, h, Bool.and_false]

/-- R240: with power the platform's line carries `err_irq`. -/
theorem State.irqOutput_of_ne_powerLost {s : State} (h : s.phase ≠ .powerLost) :
    s.irqOutput = some (s.cfg.errIrqLine, s.errIrq) := by
  unfold State.irqOutput
  split
  · next hp => exact absurd hp h
  · rfl

/-- R249: after power loss no access is performed. -/
theorem whenRunning_of_powerLost {s : State} (h : s.phase = .powerLost) (performed : Result) :
    whenRunning s performed = .fault .powerLost := by
  simp only [whenRunning, h]

/-- R260, R261: reset asserted and released leaves the reset state, from any phase. -/
theorem releaseReset_assertReset (s : State) :
    releaseReset (assertReset s) = { State.resetOf s.cfg with inbox := s.inbox, log := s.log } := rfl

end Sys2Proof.Machine

namespace Sys2Proof.Laws

open Sys2Proof.Machine

section

variable {s t : State} (hs : s.err = true) (ht : t.err = false)

include hs ht

/-- R215, R235: in the error state only the word of CLRERR clears `ERR`. -/
theorem eq_clrerr_of_issue_clears_err {w : Word} (h : issue w s = .next t) : w = 0x0000001C := by
  by_contra hw
  cases (issue_of_err hs hw).symm.trans h
  cases hs.symm.trans ht

/-- R68, R234: of the window's words only `CMD` clears `ERR`, and there only the word of CLRERR. -/
theorem eq_clrerr_of_busWrite_clears_err {off : Nat} {w : Word} (h : busWrite off w s = .next t) :
    off = 0x0010 ∧ w = 0x0000001C := by
  rcases busWrite_cases off w s with ⟨hslot, u, hu, hb⟩ | ⟨-, hb⟩ | ⟨i, j, -, hb⟩ | hb <;> cases hb.symm.trans h
  · exact ⟨eq_slotOffset_of_slotAt hslot, eq_clrerr_of_issue_clears_err (t := u) hs ht hu⟩
  all_goals cases hs.symm.trans ht

/-- R234: only the reset input and the write of CLRERR's word to `CMD` clear `ERR`. -/
theorem event_of_clears_err {e : HostEvent} (h : performEvent e s = .next t) :
    e = .assertReset ∨ e = .releaseReset ∨
      ∃ data, e = .write 32 (s.cfg.base + 0x0010) data ∧ BitVec.ofNat 32 data = 0x0000001C#32 := by
  cases e with
  | read width addr =>
    obtain ⟨r, rfl, -⟩ := performRead_cases width addr s t h
    cases hs.symm.trans ht
  | write width addr data =>
    rcases performWrite_cases width addr data s t h with rfl | ⟨-, rfl | ⟨rfl, hb⟩⟩
    · cases hs.symm.trans ht
    · cases hs.symm.trans ht
    · obtain ⟨hoff, hw⟩ := eq_clrerr_of_busWrite_clears_err hs ht hb
      obtain rfl : addr = s.cfg.base + 0x0010 := by omega
      exact .inr (.inr ⟨data, rfl, hw⟩)
  | assertReset => exact .inl rfl
  | releaseReset => exact .inr (.inl rfl)
  | powerLoss =>
    cases h
    cases hs.symm.trans ht

end

section

variable (s : State) {off : Nat} (hoff : off < 0x4000)

include hoff

/-- R60: the offsets below `0x4000` from `BASE` are the window's. -/
theorem inWindow_base_add (c : Config) : inWindow c (c.base + off) = true := by
  simp [inWindow, windowSize, hoff]

/-- R60, R263: a read of the window is performed only where the block runs. -/
theorem performRead_eq_whenRunning (width : Nat) :
    ∃ performed, performRead width (s.cfg.base + off) s = whenRunning s performed :=
  ⟨_, if_pos (inWindow_base_add hoff s.cfg)⟩

/-- R60, R263: a write of the window is performed only where the block runs. -/
theorem performWrite_eq_whenRunning (width data : Nat) :
    ∃ performed, performWrite width (s.cfg.base + off) data s = whenRunning s performed :=
  ⟨_, if_pos (inWindow_base_add hoff s.cfg)⟩

end

end Sys2Proof.Laws
end

section
/-! Errors, the interrupt and power loss (60_exceptions.md: O34, O40, O41, O50, O53). -/

namespace Sys2Proof.Certificates

open Sys2Proof.Machine Sys2Proof.Laws

/-- Settles O34: a step that rests keeps `ERR`, and of the events only reset and CLRERR's write clear it. -/
theorem onlyClrerrOrResetLeavesErrorState : Obligations.OnlyClrerrOrResetLeavesErrorState := by
  intro s t hstep hs ht
  rcases step_cases s t hstep with ⟨-, rfl⟩ | ⟨e, rest, hin, he⟩
  · cases hs.symm.trans ht
  · rcases event_of_clears_err (s := { s with inbox := rest }) hs ht he with rfl | rfl | ⟨data, rfl, hw⟩
    · exact ⟨rest, .inl hin⟩
    · exact ⟨rest, .inr (.inl hin)⟩
    · exact ⟨rest, .inr (.inr ⟨data, hin, hw⟩)⟩

/-- Settles O40: what a command raises is the pair of one of its checks, all of them in the table; and no commit enters the
error state. -/
theorem errorsArePrecise : Obligations.ErrorsArePrecise := by
  intro i s t hs hx ht
  rcases exec_cases i s with ⟨e, o, hfail, hr⟩ | ⟨-, hc⟩
  · obtain ⟨c, hmem, rfl, rfl⟩ := exists_check_of_firstFailure hfail
    obtain ⟨hcause, hallows⟩ := checksOf_raises_listed i s c hmem
    cases hr.symm.trans hx
    exact ⟨c.cause, c.opnd, hcause, hallows, rfl⟩
  · cases hc.symm.trans hx
    cases (err_commitOf hs).symm.trans ht

/-- Settles O41: the gate before the decoder drops the word. -/
theorem errorStateDropsCommands : Obligations.ErrorStateDropsCommands := fun _ _ => issue_of_err

/-- Settles O50: CLRERR and reset clear `ERR`; a write of `CTRL` with bit 0 clear masks the output and leaves the error
registers. -/
theorem errIrqFollowsErrorAndEnable : Obligations.ErrIrqFollowsErrorAndEnable := by
  intro s
  refine ⟨s.errIrq_eq_true_iff, State.irqOutput_of_ne_powerLost, fun t h => ?_, State.errIrq_of_err rfl, fun w t hw h => ?_⟩
  · cases (exec_clrerr s).symm.trans h
    exact State.errIrq_of_err s.clearError_err
  · cases (busWrite_of_slotAt_ctrl w (slotAt_ctrl s.cfg)).symm.trans h
    exact ⟨State.errIrq_of_irqen hw, rfl, rfl, rfl⟩

/-- Settles O53: an access of the window waits for a running block, and the two reset events reach the reset state from any
phase. -/
theorem powerLossIsStuckUntilReset : Obligations.PowerLossIsStuckUntilReset := by
  refine fun s width off data rest hoff => ⟨rfl, fun hp => ⟨fun hin => ?_, fun hin => ?_, fun hin => ?_⟩⟩
  · obtain ⟨_, hread⟩ := performRead_eq_whenRunning { s with inbox := rest } hoff width
    exact (step_of_inbox hin).trans (hread.trans (whenRunning_of_powerLost hp _))
  · obtain ⟨_, hwrite⟩ := performWrite_eq_whenRunning { s with inbox := rest } hoff width data
    exact (step_of_inbox hin).trans (hwrite.trans (whenRunning_of_powerLost hp _))
  · have hassert : step s = .next (assertReset { s with inbox := .releaseReset :: rest }) := step_of_inbox hin
    have hrelease : step (assertReset { s with inbox := .releaseReset :: rest }) =
        .next (releaseReset (assertReset { s with inbox := rest })) := rfl
    simp only [runSteps, hassert, hrelease, releaseReset_assertReset]

end Sys2Proof.Certificates
end

section
/-! SUPPORT. What the command cycle and an access leave of the block, once each, and so what events keep: every event the
parameters, and every event but reset the valid bits (R120, R248, R262). What reset leaves, and on what it depends (R260). -/

namespace Sys2Proof.Machine

/-- What one access can leave of the block's state, its response aside: nothing changed, a command cycle run, `CTRL` or a data
register written (R64, R65). -/
inductive State.Accessed (s : State) : State → Prop where
  | unchanged : s.Accessed s
  | cycle {w : Word} {t : State} (h : issue w s = .next t) : s.Accessed t
  | ctrl (w : Word) : s.Accessed (s.writeCtrl w)
  | data (i : Reg) (v : Nat) : s.Accessed (s.writeX i v)

/-- R260: what asserting reset leaves depends on the parameters, the host's events and its responses alone. -/
theorem assertReset_congr {s t : State} (hcfg : t.cfg = s.cfg) (hinbox : t.inbox = s.inbox) (hlog : t.log = s.log) :
    assertReset t = assertReset s := by
  simp only [assertReset, State.applyReset, hcfg, hinbox, hlog]

/-- Releasing reset keeps the parameters. -/
@[simp] theorem releaseReset_cfg (s : State) : (releaseReset s).cfg = s.cfg := by
  unfold releaseReset
  split <;> rfl

/-- R263: while reset is asserted no access is performed. -/
theorem whenRunning_of_inReset {s : State} (h : s.phase = .inReset) (performed : Result) :
    whenRunning s performed = .refused .accessDuringReset := by
  simp only [whenRunning, h]

/-- R260: a reset state with legal parameters meets the invariant, since resetting it again changes nothing. -/
theorem State.Inv.resetOf {c : Config} (hc : c.legal = true) : (State.resetOf c).Inv :=
  State.Inv.of_applyReset (s := State.resetOf c) hc .running

end Sys2Proof.Machine

namespace Sys2Proof.Laws

open Sys2Proof.Machine

/-- The valid bits are read from the contexts alone. -/
theorem validOf_congr {s t : State} (hn : t.naive = s.naive) (hm : t.mont = s.mont) (hb : t.barrett = s.barrett)
    (e : Engine) : validOf t e = validOf s e := by
  cases e <;> simp only [validOf, hn, hm, hb]

/-- R262: no commit clears a valid bit: each CONS sets its own, and no other commit changes a context. -/
theorem validOf_commitOf {i : Instr} {s : State} {e : Engine} (h : validOf s e = true) :
    validOf (commitOf i s) e = true := by
  cases i
  case consN =>
    cases e with
    | naive => rfl
    | montgomery | barrett => exact h
  case consM =>
    cases e with
    | montgomery => rfl
    | naive | barrett => exact h
  case consB =>
    cases e with
    | barrett => rfl
    | naive | montgomery => exact h
  all_goals exact (validOf_congr rfl rfl rfl e).trans h

section

variable {s t : State}

/-- R120: a command cycle drops its word, takes an error, or commits the command the word encodes, which leaves no error. -/
theorem eq_of_issue_eq_next {w : Word} (h : issue w s = .next t) : t = s.drop ∨ (∃ w' e o, t = s.raise w' e o) ∨
    ∃ i, encode i = w ∧ t.err = false ∧ t = commitOf i s := by
  rcases issue_cases w s with ⟨-, rfl, ht⟩ | ⟨-, -, ht⟩ | ⟨-, -, ht⟩ | ⟨hs, i, hd, ht⟩
  · cases ht.symm.trans h
    exact .inr (.inr ⟨.clrerr, rfl, rfl, rfl⟩)
  · cases ht.symm.trans h
    exact .inl rfl
  · cases ht.symm.trans h
    exact .inr (.inl ⟨_, _, _, rfl⟩)
  · rcases eq_of_exec_eq_next (ht.symm.trans h) with ⟨e, o, rfl⟩ | rfl
    · exact .inr (.inl ⟨_, _, _, rfl⟩)
    · exact .inr (.inr ⟨i, (decode_eq_some_iff w i).mp hd, err_commitOf hs, rfl⟩)

/-- R20: a command cycle keeps the parameters and the host's events. -/
theorem issue_frame {w : Word} (h : issue w s = .next t) : t.cfg = s.cfg ∧ t.inbox = s.inbox := by
  rcases eq_of_issue_eq_next h with rfl | ⟨w', e, o, rfl⟩ | ⟨i, -, -, rfl⟩
  · exact ⟨rfl, rfl⟩
  · exact ⟨rfl, rfl⟩
  · obtain ⟨-, -, hcfg, hinbox, -⟩ := commitOf_frame (i := i) (s := s)
    exact ⟨hcfg, hinbox⟩

/-- R262: a command cycle clears no valid bit. -/
theorem validOf_of_issue {w : Word} {e : Engine} (h : issue w s = .next t) (hs : validOf s e = true) :
    validOf t e = true := by
  rcases eq_of_issue_eq_next h with rfl | ⟨w', c, o, rfl⟩ | ⟨i, -, -, rfl⟩
  · exact (validOf_congr rfl rfl rfl e).trans hs
  · exact (validOf_congr rfl rfl rfl e).trans hs
  · exact validOf_commitOf hs

/-- R262: a command cycle that ends in the error state, or whose word is that of CLRERR, changes no context. -/
theorem contexts_of_issue {w : Word} (h : issue w s = .next t) (hw : t.err = true ∨ w = 0x0000001C) :
    t.naive = s.naive ∧ t.mont = s.mont ∧ t.barrett = s.barrett := by
  rcases eq_of_issue_eq_next h with rfl | ⟨w', e, o, rfl⟩ | ⟨i, rfl, herr, ht⟩
  · exact ⟨rfl, rfl, rfl⟩
  · exact ⟨rfl, rfl, rfl⟩
  · rcases hw with hw | hw
    · cases herr.symm.trans hw
    · have hclrerr : decode (encode i) = some .clrerr := (decode_eq_some_iff _ _).mpr hw.symm
      cases hclrerr.symm.trans ((decode_eq_some_iff _ i).mpr rfl)
      subst ht
      exact ⟨rfl, rfl, rfl⟩

/-- An access keeps the parameters. -/
theorem cfg_of_accessed (h : s.Accessed t) : t.cfg = s.cfg := by
  cases h with
  | unchanged => rfl
  | cycle h =>
    obtain ⟨hcfg, -⟩ := issue_frame h
    exact hcfg
  | ctrl w => rfl
  | data i v => rfl

/-- R262: an access clears no valid bit. -/
theorem validOf_of_accessed {e : Engine} (h : s.Accessed t) (hs : validOf s e = true) : validOf t e = true := by
  cases h with
  | unchanged => exact hs
  | cycle h => exact validOf_of_issue h hs
  | ctrl w => exact (validOf_congr rfl rfl rfl e).trans hs
  | data i v => exact (validOf_congr rfl rfl rfl e).trans hs

/-- R64: a bus write is an access and its response. -/
theorem accessed_of_busWrite {off : Nat} {w : Word} (h : busWrite off w s = .next t) :
    ∃ u r, s.Accessed u ∧ t = u.respond r := by
  rcases busWrite_cases off w s with ⟨-, u, hu, hb⟩ | ⟨-, hb⟩ | ⟨i, j, -, hb⟩ | hb <;> cases hb.symm.trans h
  · exact ⟨u, _, .cycle hu, rfl⟩
  · exact ⟨_, _, .ctrl w, rfl⟩
  · exact ⟨_, _, .data i _, rfl⟩
  · exact ⟨s, _, .unchanged, rfl⟩

/-- R248, R249, R260: an event asserts or releases reset, removes power, or is an access and its response. -/
theorem performEvent_cases {e : HostEvent} (h : performEvent e s = .next t) :
    (e = .assertReset ∧ t = assertReset s) ∨ (e = .releaseReset ∧ t = releaseReset s) ∨ t = losePower s ∨
      ∃ u r, s.Accessed u ∧ t = u.respond r := by
  cases e with
  | read width addr =>
    obtain ⟨r, rfl, -⟩ := performRead_cases width addr s t h
    exact .inr (.inr (.inr ⟨s, r, .unchanged, rfl⟩))
  | write width addr data =>
    refine .inr (.inr (.inr ?_))
    rcases performWrite_cases width addr data s t h with rfl | ⟨-, rfl | ⟨-, hb⟩⟩
    · exact ⟨s, _, .unchanged, rfl⟩
    · exact ⟨s, _, .unchanged, rfl⟩
    · exact accessed_of_busWrite hb
  | assertReset =>
    cases h
    exact .inl ⟨rfl, rfl⟩
  | releaseReset =>
    cases h
    exact .inr (.inl ⟨rfl, rfl⟩)
  | powerLoss =>
    cases h
    exact .inr (.inr (.inl rfl))

/-- No event changes the parameters (log entry 1). -/
theorem cfg_of_performEvent {e : HostEvent} (h : performEvent e s = .next t) : t.cfg = s.cfg := by
  rcases performEvent_cases h with ⟨-, rfl⟩ | ⟨-, rfl⟩ | rfl | ⟨u, r, hu, rfl⟩
  · rfl
  · exact releaseReset_cfg s
  · rfl
  · exact (u.respond_cfg r).trans (cfg_of_accessed hu)

/-- R262: an event that clears a valid bit is the reset input. -/
theorem event_of_clears_valid {ev : HostEvent} {e : Engine} (h : performEvent ev s = .next t)
    (hs : validOf s e = true) (ht : validOf t e = false) : ev = .assertReset ∨ ev = .releaseReset := by
  rcases performEvent_cases h with ⟨hev, -⟩ | ⟨hev, -⟩ | rfl | ⟨u, r, hu, rfl⟩
  · exact .inl hev
  · exact .inr hev
  · cases hs.symm.trans ((validOf_congr rfl rfl rfl e).trans ht)
  · cases (validOf_of_accessed hu hs).symm.trans ((validOf_congr rfl rfl rfl e).trans ht)

end

end Sys2Proof.Laws
end

section
/-! Reset, the valid bits it alone clears, and the step with no event (70_reset_and_hazards.md: O30, O32, O33, O43, O51, O52,
O54). -/

namespace Sys2Proof.Certificates

open Sys2Proof.Machine Sys2Proof.Laws

/-- Settles O33: a step that rests keeps the valid bits, of the events only reset clears one, and a command cycle that ends in
the error state or runs CLRERR changes no context. -/
theorem onlyResetClearsValidBits : Obligations.OnlyResetClearsValidBits := by
  refine ⟨fun s t e hstep hs ht => ?_, fun _ _ _ => contexts_of_issue⟩
  rcases step_cases s t hstep with ⟨-, rfl⟩ | ⟨ev, rest, hin, hev⟩
  · cases hs.symm.trans ht
  · rcases event_of_clears_valid hev ((validOf_congr rfl rfl rfl e).trans hs) ht with rfl | rfl
    · exact ⟨rest, .inl hin⟩
    · exact ⟨rest, .inr hin⟩

/-- Settles O54: the command cycle keeps all that reset keeps. -/
theorem resetErasesTheCommandBefore : Obligations.ResetErasesTheCommandBefore := by
  intro w s t h
  obtain ⟨hcfg, hinbox⟩ := issue_frame h
  exact assertReset_congr hcfg hinbox (log_of_issue h)

/-- Settles O30: the default parameters are legal, and every legal reset state meets the invariant. -/
theorem resetMeetsInvariant : Obligations.ResetMeetsInvariant :=
  ⟨State.Inv.resetOf (by decide), fun _ => State.Inv.resetOf⟩

/-- Settles O51: the step is `assertReset`, whose fields are the reset values, and releasing reset puts them there again. -/
theorem resetInputClearsEverything : Obligations.ResetInputClearsEverything := by
  intro s rest hin
  refine ⟨assertReset { s with inbox := rest }, step_of_inbox hin, rfl, rfl, rfl, rfl, State.readX_applyReset s,
    rfl, rfl, rfl, rfl, rfl, rfl, rfl, rfl, rfl, rfl, rfl, fun rest' hrest => ?_⟩
  subst hrest
  rfl

/-- Settles O52: an access of the window waits for a running block. -/
theorem accessDuringResetHasNoStep : Obligations.AccessDuringResetHasNoStep := by
  refine fun s width off data rest hp hoff => ⟨fun hin => ?_, fun hin => ?_⟩
  · obtain ⟨_, hread⟩ := performRead_eq_whenRunning { s with inbox := rest } hoff width
    exact (step_of_inbox hin).trans (hread.trans (whenRunning_of_inReset hp _))
  · obtain ⟨_, hwrite⟩ := performWrite_eq_whenRunning { s with inbox := rest } hoff width data
    exact (step_of_inbox hin).trans (hwrite.trans (whenRunning_of_inReset hp _))

/-- Settles O32: a step rests or performs one event, and no event changes the parameters. -/
theorem parametersNeverChange : Obligations.ParametersNeverChange := by
  intro s t hstep
  rcases step_cases s t hstep with ⟨-, rfl⟩ | ⟨e, rest, -, he⟩
  · rfl
  · exact cfg_of_performEvent (s := { s with inbox := rest }) he

/-- Settles O43: with no event `performNext` answers the state it was given (log entry 17). -/
theorem idleStepChangesNothing : Obligations.IdleStepChangesNothing := by
  intro s hin
  simp only [step, performNext, hin]

end Sys2Proof.Certificates
end
